-- ==== Sys2Proof/Word.lean ====
section
/-! DEFINITION. The two widths of the spec's data: a byte, and the 64-bit value of a block or a key
(00_scope.md R6, R7, R12). Lengths, addresses and counts are naturals (R12) and have no type of their own. -/

namespace Sys2Proof

/-- A byte, 0..255 (00_scope.md R12). -/
abbrev Byte := BitVec 8

/-- A 64-bit value: what `KEYR`, `XR` and `YR` hold (10_state.md R24). Bit 63 is the most significant (R12). -/
abbrev Word := BitVec 64

end Sys2Proof
end

