-- ==== Sys2Proof/Syntax.lean ====
section
/-! DEFINITION. Syntax: the command format CMD and the response format RSP (30_encoding.md R60, R64), the status
codes (60_exceptions.md R150), and the eleven operations of spec/opcode_table.json: four commands and the seven
unit-level functions they are built from. -/

namespace Sys2Proof

/-- The command format CMD (30_encoding.md R60): the tuple of five fields the host presents as one value. The length
fields are plain naturals (R62). A tuple whose lengths differ from the bytes presented is no command; `decode` turns
it away. -/
structure Cmd where
  op : BitVec 2
  klen : Nat
  dlen : Nat
  key : List Byte
  data : List Byte
  deriving DecidableEq, Repr

/-- The tuple of an operation code, a data operand and a key operand: its lengths are the lengths of the sequences
(30_encoding.md R62). -/
def Cmd.of (op : BitVec 2) (data key : List Byte) : Cmd :=
  { op := op, klen := key.length, dlen := data.length, key := key, data := data }

/-- Every row of spec/opcode_table.json. The four commands write their operands in the source's order, data then key
(30_encoding.md R63, R70). The other seven are unit-level functions: they have no encoding and the host cannot select
one (R68); they are the datapath of the four. -/
inductive Instr where
  | encryptBlock (plaintext key : List Byte)
  | decryptBlock (ciphertext key : List Byte)
  | encryptBytes (data key : List Byte)
  | decryptBytes (data key : List Byte)
  | bytesToInt (b : List Byte)
  | intToBytes (v L : Nat)
  | transform (x k : Word)
  | pad (d : List Byte)
  | unpad (p : List Byte)
  | ecbEncrypt (d key : List Byte)
  | ecbDecrypt (c key : List Byte)
  deriving DecidableEq, Repr

/-- The status classes (60_exceptions.md R150). The code `11` is never produced, so there are three. -/
inductive StatusClass where
  | ok
  | invalidArgument
  | paddingError
  deriving DecidableEq, Repr, Inhabited

/-- The two bits of a class (60_exceptions.md R150, 30_encoding.md R64). -/
def StatusClass.code : StatusClass → BitVec 2
  | .ok => 0b00#2
  | .invalidArgument => 0b01#2
  | .paddingError => 0b10#2

/-- The status flags `ST.class` and `ST.cause` (10_state.md R26). Bits of the cause, 60_exceptions.md R150:
0 KEY_LENGTH, 1 DATA_LENGTH, 2 PAD_RANGE, 3 PAD_MISMATCH. -/
structure Status where
  cls : StatusClass
  cause : BitVec 4
  deriving DecidableEq, Repr, Inhabited

/-- The response format RSP (30_encoding.md R64). -/
structure Response where
  cls : StatusClass
  cause : BitVec 4
  olen : Nat
  out : List Byte
  deriving DecidableEq, Repr

end Sys2Proof
end

