-- ==== Sys2Proof/Config.lean ====
section
/-! DEFINITION. What is fixed when the hardware is built (00_scope.md R6 to R11) and the values the spec leaves open,
as opaque constants that no proof can evaluate. -/

namespace Sys2Proof

/-- `BLOCK_SIZE`, 8 bytes (00_scope.md R6). -/
def blockSize : Nat := 8

/-- `KEY_SIZE`, 8 bytes (00_scope.md R7). -/
def keySize : Nat := 8

/-- `PAD_CHECK`: how `unpad` treats a malformed pad (00_scope.md R8). `unchecked` is the spec's NONE. -/
inductive PadCheck where
  | unchecked
  | range
  | full
  deriving DecidableEq, Repr

/-- The static parameters a model takes as arguments (00_scope.md R8, R10, R11); `none` is "unbounded". -/
structure Params where
  padCheck : PadCheck
  maxKlen : Option Nat
  maxDlen : Option Nat
  nlanes : Nat
  deriving DecidableEq, Repr

/-- The parameters of this hardware (00_scope.md, summary of parameters). -/
def Params.hardware : Params :=
  { padCheck := .full, maxKlen := none, maxDlen := none, nlanes := 1 }

/-- Does a bound on a length field admit this length (00_scope.md R10)? -/
def Params.admits : Option Nat → Nat → Bool
  | none, _ => true
  | some m, n => decide (n ≤ m)

/-- One lane's registers (10_state.md R24: "each lane has its own `XR` and `YR`"). -/
structure Lane where
  xr : Word
  yr : Word
  deriving DecidableEq, Repr, Inhabited

/-- A value for every piece of command-scoped state (10_state.md R31), for the interval outside a command, where the
spec leaves all of them unspecified. -/
structure Unspecified where
  op : BitVec 2
  klen : Nat
  dlen : Nat
  kbuf : List Byte
  dbuf : List Byte
  wbuf : List Byte
  obuf : List Byte
  keyr : Word
  lane0 : Lane
  nr : Byte
  idx : Nat
  nblk : Nat
  st : Status
  deriving DecidableEq, Repr, Inhabited

/-- FREE VALUE (log 4): what the working state holds after the `n`-th command or reset, which 10_state.md R31 leaves
unspecified. It has no body, so nothing can be proved about the values it gives. -/
opaque Config.unspecified : Nat → Unspecified

/-- FREE VALUE (log 4): the same for the registers of the lanes beyond the first. -/
opaque Config.unspecifiedLane : Nat → Nat → Lane

/-- FREE VALUE (log 8): with PAD_CHECK = NONE and a last byte of 0, does `unpad` return the whole input or nothing?
42_padding.md R106 admits both and forbids a model to pick one. -/
opaque Config.unpadZeroKeepsAll : Nat → Bool

end Sys2Proof
end

