-- ==== Sys2Proof/WellFormed.lean ====
section
/-! DEFINITION. Which parameters, command tuples and instruction terms are well formed. A term that is not is turned
away by name: by `decode` for a command, by the meaning for a unit-level function. -/

namespace Sys2Proof

/-- The parameters a core can be built with: at least one lane (00_scope.md R11), and bounds of at least 9 so that a
wrong length can be presented and refused (R10). -/
def Params.wf (p : Params) : Bool :=
  decide (1 ≤ p.nlanes) && Params.admits p.maxKlen 9 && Params.admits p.maxDlen 9

/-- A formed command: each length field is the number of bytes presented (30_encoding.md R62) and within the bounds of
the interface (00_scope.md R10). -/
def Cmd.wf (p : Params) (c : Cmd) : Bool :=
  decide (c.klen = c.key.length) && decide (c.dlen = c.data.length)
    && Params.admits p.maxKlen c.klen && Params.admits p.maxDlen c.dlen

/-- The operands a command can carry (00_scope.md R10). Wrong lengths are well formed: the command itself answers them
(30_encoding.md R67). -/
def operandsFit (p : Params) (data key : List Byte) : Bool :=
  Params.admits p.maxKlen key.length && Params.admits p.maxDlen data.length

/-- Well-formed instruction terms. The unit-level functions have the operand conditions of spec/opcode_table.json and
42_padding.md R109, 43_ecb_mode.md R119 and 93_implementation_defined.md U8: a non-empty `unpad` or `ecbDecrypt`
operand and an 8-byte key. A misaligned `ecbDecrypt` operand is well formed: R118 gives its effect. -/
def Instr.wf (p : Params) : Instr → Bool
  | .encryptBlock d k => operandsFit p d k
  | .decryptBlock d k => operandsFit p d k
  | .encryptBytes d k => operandsFit p d k
  | .decryptBytes d k => operandsFit p d k
  | .bytesToInt _ => true
  | .intToBytes _ _ => true
  | .transform _ _ => true
  | .pad _ => true
  | .unpad q => !q.isEmpty
  | .ecbEncrypt _ k => decide (k.length = keySize)
  | .ecbDecrypt c k => decide (k.length = keySize) && !c.isEmpty

end Sys2Proof
end

