-- ==== Sys2Proof/Decode.lean ====
section
/-! DEFINITION. The decoder from the command tuple CMD to an instruction, total, rejecting by name, and the encoder,
both from the opcode map of 30_encoding.md R61. A command is a tuple, not a string of bits (R60, R69; log 1): the
only bit layout the spec gives is `op[1:0]`. -/

namespace Sys2Proof

/-- Why a tuple is no command this interface carries. -/
inductive DecodeError where
  /-- `klen` is not the number of key bytes presented (30_encoding.md R62). -/
  | keyBytesDiffer
  /-- `dlen` is not the number of data bytes presented (30_encoding.md R62). -/
  | dataBytesDiffer
  /-- `klen` is beyond `MAX_KLEN` (00_scope.md R10). -/
  | keyTooLong
  /-- `dlen` is beyond `MAX_DLEN` (00_scope.md R10). -/
  | dataTooLong
  deriving DecidableEq, Repr

/-- The opcode map (30_encoding.md R61): `op[1]` is the granularity, 0 one block and 1 a byte sequence; `op[0]` is the
direction, 0 encrypt and 1 decrypt. All four values are defined (R66). -/
def selectCommand (op : BitVec 2) (data key : List Byte) : Instr :=
  if op.getLsbD 1 then
    if op.getLsbD 0 then .decryptBytes data key else .encryptBytes data key
  else
    if op.getLsbD 0 then .decryptBlock data key else .encryptBlock data key

/-- Decode a command tuple (30_encoding.md R66: total; R62 and 00_scope.md R10: what is no command). The parameters are
those of the interface that carries it. -/
def decode (p : Params) (c : Cmd) : Except DecodeError Instr :=
  if c.klen ≠ c.key.length then .error .keyBytesDiffer
  else if c.dlen ≠ c.data.length then .error .dataBytesDiffer
  else if !Params.admits p.maxKlen c.klen then .error .keyTooLong
  else if !Params.admits p.maxDlen c.dlen then .error .dataTooLong
  else .ok (selectCommand c.op c.data c.key)

/-- The operation codes of the four commands (30_encoding.md R61). -/
def opEncryptBlock : BitVec 2 := 0b00#2
def opDecryptBlock : BitVec 2 := 0b01#2
def opEncryptBytes : BitVec 2 := 0b10#2
def opDecryptBytes : BitVec 2 := 0b11#2

/-- Encode an instruction as its command tuple; the unit-level functions have no encoding (30_encoding.md R68). -/
def encode : Instr → Option Cmd
  | .encryptBlock d k => some (Cmd.of opEncryptBlock d k)
  | .decryptBlock d k => some (Cmd.of opDecryptBlock d k)
  | .encryptBytes d k => some (Cmd.of opEncryptBytes d k)
  | .decryptBytes d k => some (Cmd.of opDecryptBytes d k)
  | .bytesToInt _ => none
  | .intToBytes _ _ => none
  | .transform _ _ => none
  | .pad _ => none
  | .unpad _ => none
  | .ecbEncrypt _ _ => none
  | .ecbDecrypt _ _ => none

/-- The command tuple of a word of spec/opcode_table.json: bits 1:0 are `op`, the only bits the table gives; the bits
above belong to the next field in the order of 30_encoding.md R60, `klen`; no operand byte is presented, since an
operand word of zeros is a length of zero (log 1). -/
def cmdOfTableWord (w : Nat) : Cmd :=
  { op := BitVec.ofNat 2 w, klen := w / 4, dlen := 0, key := [], data := [] }

/-- What the decoder reads from a word of the opcode table, under the parameters of this hardware. A word with a bit
above `op` claims key bytes that are not presented, so it is refused (30_encoding.md R62). -/
def decodeTableWord (_nbits w : Nat) : Option Instr :=
  match decode Params.hardware (cmdOfTableWord w) with
  | .ok i => some i
  | .error _ => none

end Sys2Proof
end

