-- ==== Sys2Proof/Machine/State.lean ====
section
/-! DEFINITION. The state, as plain data: everything 10_state.md and 20_memory.md name, the host agent of R20 (a), and
two fields of the model's own (`ret`, `draws`). Faults and refusals are closed lists of named reasons. -/

namespace Sys2Proof.Machine

/-- The sequencer phase (10_state.md R22). -/
inductive Phase where
  | idle
  | busy
  deriving DecidableEq, Repr

/-- A byte space as (address, byte) pairs in one canonical form: addresses strictly rising (`Memory.wf`, in
Machine/Ops.lean). An address that is not listed holds no byte: it lies beyond the sequence (20_memory.md R40), and
reading it faults (log 10). -/
abbrev Memory := List Host.Cell

/-- The names of the four byte spaces (20_memory.md R40). -/
inductive Space where
  | kbuf
  | dbuf
  | wbuf
  | obuf
  deriving DecidableEq, Repr

/-- The value a unit-level function returned to its caller (00_scope.md R12): a model's own field (log 6). -/
inductive Return where
  /-- no unit-level function has returned a value -/
  | nothing
  /-- a natural (`bytesToInt`) -/
  | value (v : Nat)
  /-- a 64-bit value (`transform`) -/
  | word (y : Word)
  /-- a byte sequence -/
  | bytes (b : List Byte)
  /-- the failure `fail E(cause)` with a status class (42_padding.md R107, R108, 43_ecb_mode.md R118) -/
  | failed (st : Status)
  /-- the failure `CODEC_RANGE`, which has no status class (60_exceptions.md R154) -/
  | codecRange
  deriving DecidableEq, Repr

/-- What the host does next (10_state.md R20 (a), 60_exceptions.md R166, 70_reset_and_hazards.md R176). -/
inductive HostAction where
  /-- present one command -/
  | present (c : Cmd)
  /-- wait for the response to the command presented before -/
  | await
  /-- assert reset -/
  | reset
  deriving DecidableEq, Repr

/-- The state of the core and of its host. -/
@[ext]
structure State where
  /-- the static parameters, as built (00_scope.md R8, R10, R11; 10_state.md R31) -/
  params : Params
  /-- `PHASE` (10_state.md R22) -/
  phase : Phase
  /-- `OP`, the latched operation code (10_state.md R23) -/
  op : BitVec 2
  /-- `KLEN` (10_state.md R23) -/
  klen : Nat
  /-- `DLEN` (10_state.md R23) -/
  dlen : Nat
  /-- `KBUF` (20_memory.md R40) -/
  kbuf : Memory
  /-- `DBUF` (20_memory.md R40) -/
  dbuf : Memory
  /-- `WBUF` (20_memory.md R40) -/
  wbuf : Memory
  /-- `OBUF` (20_memory.md R40) -/
  obuf : Memory
  /-- `KEYR` (10_state.md R24) -/
  keyr : Word
  /-- `XR` of lane 0 (10_state.md R24) -/
  xr : Word
  /-- `YR` of lane 0 (10_state.md R24) -/
  yr : Word
  /-- `XR` and `YR` of lanes 1 to NLANES - 1 (10_state.md R24) -/
  lanes : List Lane
  /-- `NR` (10_state.md R24) -/
  nr : Byte
  /-- `IDX` (10_state.md R25) -/
  idx : Nat
  /-- `NBLK` (10_state.md R25) -/
  nblk : Nat
  /-- `ST.class` and `ST.cause` (10_state.md R26) -/
  st : Status
  /-- the model's own: what a unit-level function returned (log 6) -/
  ret : Return
  /-- the host agent: what it does next (log 2) -/
  todo : List HostAction
  /-- the host agent: the responses it has received, oldest first (30_encoding.md R64, log 14) -/
  responses : List Response
  /-- the model's own: how many free values have been drawn (log 4, log 8) -/
  draws : Nat
  deriving DecidableEq, Repr

/-- The machine right after reset: `PHASE = IDLE` and the parameters of this hardware (10_state.md R31,
70_reset_and_hazards.md R175). Every other value is the model's own choice, zero or empty (log 3): the spec leaves it
unspecified. -/
def State.reset : State :=
  { params := Params.hardware, phase := .idle, op := 0, klen := 0, dlen := 0, kbuf := [], dbuf := [], wbuf := [],
    obuf := [], keyr := 0, xr := 0, yr := 0, lanes := [], nr := 0, idx := 0, nblk := 0,
    st := { cls := .ok, cause := 0 }, ret := .nothing, todo := [], responses := [], draws := 0 }

/-- Why the machine stops with a fault. None is reached by a step from a state that meets `Safety.Inv`. -/
inductive Fault where
  /-- `MemRead` at an address that holds no byte (20_memory.md R40, R44: no rule generates one). Raised by `memRead`.
  Safe: the spec gives such an access no value. -/
  | addressBeyondSpace (S : Space) (a : Nat)
  /-- `intToBytes` failed inside a block step (40_codec.md R83: it cannot). Raised by `blockStepOn`. Safe: the
  alternative is a truncation, which R185 forbids. -/
  | codecRange
  /-- A command while another is in flight: the spec gives it no step (10_state.md R22, 70_reset_and_hazards.md R180,
  93_implementation_defined.md U11 "stuck"). Raised by `enter`. Safe. -/
  | commandWhileBusy
  deriving DecidableEq, Repr

/-- Why an instruction is given no meaning. -/
inductive Refusal where
  /-- an instruction of the opcode table that the dispatch gives no meaning yet. Safe. -/
  | notModelled (mnemonic : String)
  /-- the host presented a tuple that is no command (30_encoding.md R62) or exceeds the interface (00_scope.md R10):
  refused at the boundary, not by the core. Raised by `hostStep` and by `step`. Safe. -/
  | notACommand (e : DecodeError)
  /-- `unpad` of the empty sequence, directly or through `ecbDecrypt` (42_padding.md R109, 43_ecb_mode.md R119:
  undefined, "a model refuses it"). Raised by `unpadUnit`. Safe. -/
  | unpadOfEmpty
  /-- a unit-level `ecbEncrypt` or `ecbDecrypt` whose key is not 8 bytes (93_implementation_defined.md U8: refuse).
  Raised by `execEcbEncrypt` and `execEcbDecrypt`. Safe. -/
  | unitKeyLength
  deriving DecidableEq, Repr

end Sys2Proof.Machine
end

