-- ==== Sys2Proof/Machine/Ops.lean ====
section
/-! DEFINITION. The operations every meaning is written over: sequencing of outcomes, the byte spaces and the two
access primitives `MemRead` and `MemWrite` (20_memory.md R44, R45), acceptance of a command (10_state.md R22, R23),
production of its response, and `raise`, the one way an error ends a command (60_exceptions.md R158). -/

namespace Sys2Proof.Machine

open Host (Outcome)

/-- Go on with `f` where the first part answers a next state; a fault or a refusal stops. -/
def andThen {α β : Type} (o : Outcome α Fault Refusal) (f : α → Outcome β Fault Refusal) : Outcome β Fault Refusal :=
  match o with
  | .next a => f a
  | .fault r => .fault r
  | .refused r => .refused r

/-! ### Byte spaces -/

/-- The canonical form: addresses strictly rising. There is no second condition: an unlisted address reads as no byte
at all, so no entry can equal what it reads as. -/
def Memory.wf : Memory → Bool
  | [] => true
  | [_] => true
  | (a, _) :: (b, y) :: m => decide (a < b) && Memory.wf ((b, y) :: m)

/-- The byte at an address; none where the space holds no byte there (20_memory.md R40). -/
def Memory.readByte : Memory → Nat → Option Byte
  | [], _ => none
  | (b, v) :: m, a => if a = b then some v else Memory.readByte m a

/-- Put one byte at an address, in place. -/
def Memory.writeByte : Memory → Nat → Byte → Memory
  | [], a, v => [(a, v)]
  | (b, w) :: m, a, v =>
    if a < b then (a, v) :: (b, w) :: m
    else if a = b then (a, v) :: m
    else (b, w) :: Memory.writeByte m a v

/-- Put a byte sequence at an address, in address order (20_memory.md R45). -/
def Memory.writeBytes : Memory → Nat → List Byte → Memory
  | m, _, [] => m
  | m, a, v :: vs => Memory.writeBytes (m.writeByte a v) (a + 1) vs

/-- `n` bytes from an address, in address order (20_memory.md R44), or the first address that holds no byte. -/
def Memory.readBytes (m : Memory) : Nat → Nat → Except Nat (List Byte)
  | _, 0 => .ok []
  | a, n + 1 =>
    match m.readByte a with
    | none => .error a
    | some v =>
      match Memory.readBytes m (a + 1) n with
      | .ok vs => .ok (v :: vs)
      | .error e => .error e

/-- The cells of a byte sequence from a given address on. -/
def Memory.cellsFrom : Nat → List Byte → Memory
  | _, [] => []
  | a, v :: vs => (a, v) :: Memory.cellsFrom (a + 1) vs

/-- The byte space that holds a byte sequence, from address 0 (20_memory.md R40, R49). -/
def Memory.ofBytes (l : List Byte) : Memory := Memory.cellsFrom 0 l

/-- The bytes a space holds, in address order. -/
def Memory.bytes (m : Memory) : List Byte := m.map Prod.snd

/-- `len(S)`, the number of bytes a space holds (00_scope.md R12). -/
def Memory.size (m : Memory) : Nat := m.length

/-- The space of a given name. -/
def State.space (s : State) : Space → Memory
  | .kbuf => s.kbuf
  | .dbuf => s.dbuf
  | .wbuf => s.wbuf
  | .obuf => s.obuf

/-- Replace the space of a given name. -/
def State.setSpace (s : State) (S : Space) (m : Memory) : State :=
  match S with
  | .kbuf => { s with kbuf := m }
  | .dbuf => { s with dbuf := m }
  | .wbuf => { s with wbuf := m }
  | .obuf => { s with obuf := m }

/-- `MemRead(S:a, n)` (20_memory.md R44). It needs `a + n <= len(S)`; an address that holds no byte faults. -/
def memRead (S : Space) (a n : Nat) (s : State) : Outcome (List Byte) Fault Refusal :=
  match (s.space S).readBytes a n with
  | .ok b => .next b
  | .error e => .fault (.addressBeyondSpace S e)

/-- `MemRead(S:a, 1)[0]`, the one-byte access of 20_memory.md R47 (b). -/
def memReadByte (S : Space) (a : Nat) (s : State) : Outcome Byte Fault Refusal :=
  match (s.space S).readByte a with
  | some v => .next v
  | none => .fault (.addressBeyondSpace S a)

/-- `MemWrite(S:a, len(v), v)` (20_memory.md R45; beyond the end only when blocks are taken in another order, R52). -/
def memWrite (S : Space) (a : Nat) (v : List Byte) (s : State) : State :=
  s.setSpace S ((s.space S).writeBytes a v)

/-! ### Lane registers -/

/-- Write `XR` of a lane (10_state.md R24); lane 0's registers are the ones named `XR` and `YR`. -/
def State.setXR (s : State) (lane : Nat) (x : Word) : State :=
  match lane with
  | 0 => { s with xr := x }
  | l + 1 => { s with lanes := s.lanes.modify l fun r => { r with xr := x } }

/-- Write `YR` of a lane (10_state.md R24). -/
def State.setYR (s : State) (lane : Nat) (y : Word) : State :=
  match lane with
  | 0 => { s with yr := y }
  | l + 1 => { s with lanes := s.lanes.modify l fun r => { r with yr := y } }

/-! ### Acceptance -/

/-- Acceptance of a command (10_state.md R22, R23, R26; 30_encoding.md R72 (1), (2)): the latch is written from the
command, the status is cleared, and the phase is BUSY. -/
def State.accept (s : State) (c : Cmd) : State :=
  { s with
    phase := .busy, op := c.op, klen := c.klen, dlen := c.dlen
    kbuf := Memory.ofBytes c.key, dbuf := Memory.ofBytes c.data
    st := { cls := .ok, cause := 0 } }

/-- The command the latch holds (10_state.md R23). -/
def State.latched (s : State) : Cmd :=
  { op := s.op, klen := s.klen, dlen := s.dlen, key := s.kbuf.bytes, data := s.dbuf.bytes }

/-- Can this command run from this state: the core is idle, or this very command is the one in flight. -/
def State.ready (s : State) (c : Cmd) : Prop :=
  s.phase = .idle ∨ s.latched = c

/-- Enter a command: accept it when the core is idle, go on with it when it is the one in flight. Another command while
BUSY has no step (10_state.md R22, 93_implementation_defined.md U11). -/
def enter (c : Cmd) (s : State) : Outcome State Fault Refusal :=
  if s.phase = .idle ∨ s.latched = c then .next (s.accept c) else .fault .commandWhileBusy

/-! ### The end of a command -/

/-- Outside a command the content of the working state is unspecified (10_state.md R31, R21; 93_implementation_defined.md
U13): every piece of it becomes a free value (log 4), and nothing of the command is retained. -/
def State.release (s : State) : State :=
  let u := Config.unspecified s.draws
  { s with
    op := u.op, klen := u.klen, dlen := u.dlen
    kbuf := Memory.ofBytes u.kbuf, dbuf := Memory.ofBytes u.dbuf
    wbuf := Memory.ofBytes u.wbuf, obuf := Memory.ofBytes u.obuf
    keyr := u.keyr, xr := u.lane0.xr, yr := u.lane0.yr
    lanes := (List.range (s.params.nlanes - 1)).map (Config.unspecifiedLane s.draws)
    nr := u.nr, idx := u.idx, nblk := u.nblk, st := u.st, ret := .nothing, draws := s.draws + 1 }

/-- The response the status flags and `OBUF` stand for (30_encoding.md R64; 10_state.md R26: ST is copied to it). -/
def State.rsp (s : State) : Response :=
  { cls := s.st.cls, cause := s.st.cause, olen := s.obuf.size, out := s.obuf.bytes }

/-- Leave a command with a response: the host gets it, the phase is IDLE (10_state.md R22), nothing is retained. -/
def State.answerWith (s : State) (r : Response) : State :=
  State.release { s with phase := .idle, responses := s.responses ++ [r] }

/-- Produce the response (10_state.md R22, R32: status and output at once). -/
def respond (s : State) : State := s.answerWith s.rsp

/-- `raise E(cause)` (60_exceptions.md R158): the status is written, `OBUF` is discarded, and the response is produced
with that class and cause and no output. Nothing is saved and nothing is jumped to. The return from it is the next
acceptance (R160). -/
def raise (st : Status) (s : State) : State := respond { s with st := st, obuf := [] }

/-- The reset line (70_reset_and_hazards.md R175 to R177): IDLE, a command in flight is dropped with no response, and
the rest is unspecified, exactly as after a response. -/
def resetLine (s : State) : State := State.release { s with phase := .idle }

end Sys2Proof.Machine
end

