-- ==== Sys2Proof/Machine/Operands.lean ====
section
/-! DEFINITION. Operands: the codec between byte sequences and integers (40_codec.md R80, R81), the assembly of the key
(30_encoding.md R65), and where a unit-level function's operands stand (log 6). -/

namespace Sys2Proof.Machine

open Host (Outcome)

/-- `bytesToInt` (40_codec.md R80): `v <- v * 256 + b[k]` over the bytes in order, from 0. Exact, for any length. -/
def bytesToInt (b : List Byte) : Nat := b.foldl (fun v x => v * 256 + x.toNat) 0

/-- `intToBytes` (40_codec.md R81): exactly `L` bytes, big-endian, or `CODEC_RANGE` (`none`) where the value needs more.
It never truncates. -/
def intToBytes (v L : Nat) : Option (List Byte) :=
  if 256 ^ L ≤ v then none
  else some ((List.range L).map fun k => BitVec.ofNat 8 (v / 256 ^ (L - 1 - k) % 256))

/-- The 64-bit value of a byte sequence: `bytesToInt` into a 64-bit register (40_codec.md R83, R84). -/
def toWord (b : List Byte) : Word := BitVec.ofNat 64 (bytesToInt b)

/-- `KEYR <- bytesToInt(MemRead(KBUF:0, 8))` (30_encoding.md R65 (a)). -/
def loadKey (s : State) : Outcome State Fault Refusal :=
  andThen (memRead .kbuf 0 keySize s) fun k => .next { s with keyr := toWord k }

/-- Stand a unit-level function's data operand where its rule reads it from, `DBUF` (42_padding.md R100). -/
def stageData (d : List Byte) (s : State) : State :=
  { s with dbuf := Memory.ofBytes d, dlen := d.length }

/-- Stand a unit-level function's key operand in `KBUF` (43_ecb_mode.md R116). -/
def stageKey (k : List Byte) (s : State) : State :=
  { s with kbuf := Memory.ofBytes k, klen := k.length }

/-- Stand the operand of `unpad` in `WBUF` (42_padding.md R103). -/
def stageWork (p : List Byte) (s : State) : State :=
  { s with wbuf := Memory.ofBytes p }

end Sys2Proof.Machine
end

