-- ==== Sys2Proof/Machine/Flags.lean ====
section
/-! DEFINITION. The cause flags (60_exceptions.md R150) and the length checks that set them (R151, R152, R157;
30_encoding.md R67). The core has no arithmetic flags (10_state.md R26). -/

namespace Sys2Proof.Machine

/-- Cause bit 0, `KEY_LENGTH` (60_exceptions.md R150). -/
def causeKeyLength : BitVec 4 := 0b0001#4
/-- Cause bit 1, `DATA_LENGTH` (60_exceptions.md R150). -/
def causeDataLength : BitVec 4 := 0b0010#4
/-- Cause bit 2, `PAD_RANGE` (60_exceptions.md R150). -/
def causePadRange : BitVec 4 := 0b0100#4
/-- Cause bit 3, `PAD_MISMATCH` (60_exceptions.md R150). -/
def causePadMismatch : BitVec 4 := 0b1000#4

/-- Both length flags, evaluated together (60_exceptions.md R157 (1)). -/
def lengthCause (keyBad dataBad : Bool) : BitVec 4 :=
  (if keyBad then causeKeyLength else 0) ||| (if dataBad then causeDataLength else 0)

/-- Is the key length refused (60_exceptions.md R151)? -/
def keyLengthBad (klen : Nat) : Bool := decide (klen ≠ keySize)

/-- Is the data length refused by a block command (60_exceptions.md R151)? -/
def blockLengthBad (dlen : Nat) : Bool := decide (dlen ≠ blockSize)

/-- Is the data length refused by `decryptBytes` (60_exceptions.md R152): not a positive multiple of 8? -/
def cipherLengthBad (dlen : Nat) : Bool := decide (dlen = 0) || decide (dlen % blockSize ≠ 0)

/-- The status of a length violation (60_exceptions.md R151, R152). -/
def invalidArgument (cause : BitVec 4) : Status := { cls := .invalidArgument, cause := cause }

/-- The status of a refused pad (60_exceptions.md R153). -/
def paddingError (cause : BitVec 4) : Status := { cls := .paddingError, cause := cause }

/-- The status of a completed command (60_exceptions.md R150). -/
def statusOk : Status := { cls := .ok, cause := 0 }

end Sys2Proof.Machine
end

