-- ==== Sys2Proof/Machine/Codec.lean ====
section
/-! DEFINITION. Codec Utilities (40_codec.md): the unit-level `bytesToInt` and `intToBytes`. -/

namespace Sys2Proof.Machine

open Host (Outcome)

/-- `bytesToInt(b)` (40_codec.md R80): the value is returned; no flag, no failure. -/
def execBytesToInt (b : List Byte) (s : State) : Outcome State Fault Refusal :=
  .next { s with ret := .value (bytesToInt b) }

/-- `intToBytes(v, L)` (40_codec.md R81): the bytes are returned, or the failure `CODEC_RANGE` (log 7). -/
def execIntToBytes (v L : Nat) (s : State) : Outcome State Fault Refusal :=
  match intToBytes v L with
  | some b => .next { s with ret := .bytes b }
  | none => .next { s with ret := .codecRange }

end Sys2Proof.Machine
end

