-- ==== Sys2Proof/Machine/Padding.lean ====
section
/-! DEFINITION. Padding Scheme (42_padding.md): `pad` and `unpad`, the latter by PAD_CHECK. -/

namespace Sys2Proof.Machine

open Host (Outcome)

/-- The number of pad bytes for a length: `bs - (L mod bs)` (42_padding.md R100, R102). -/
def padLength (bs L : Nat) : Nat := bs - L % bs

/-- The general `pad(d, bs)` (42_padding.md R102). It needs `1 <= bs <= 255`; outside that it is given no meaning
(93_implementation_defined.md U15). The core uses 8 only. -/
def padWith (bs : Nat) (d : List Byte) : Option (List Byte) :=
  if 1 ≤ bs ∧ bs ≤ 255 then
    some (d ++ List.replicate (padLength bs d.length) (BitVec.ofNat 8 (padLength bs d.length)))
  else none

/-- Write `n` single bytes of one value to `WBUF` from an address on (20_memory.md R47 (b)). -/
def writeRep (a : Nat) (v : Byte) : Nat → State → State
  | 0, s => s
  | n + 1, s => writeRep (a + 1) v n (memWrite .wbuf a [v] s)

/-- `pad` over the state (42_padding.md R100): `NR`, then `WBUF` is the data of `DBUF` and `NR` bytes of value `NR`. -/
def padUnit (s : State) : Outcome State Fault Refusal :=
  let L := s.dbuf.size
  let n := padLength blockSize L
  andThen (memRead .dbuf 0 L s) fun d =>
    .next (writeRep L (BitVec.ofNat 8 n) n (memWrite .wbuf 0 d { s with nr := BitVec.ofNat 8 n, wbuf := [] }))

/-- `OBUF <- WBUF[0 : m]` (42_padding.md R106 to R108). -/
def keepFirst (m : Nat) (s : State) : Outcome State Fault Refusal :=
  andThen (memRead .wbuf 0 m s) fun d => .next (memWrite .obuf 0 d { s with obuf := [] })

/-- Do the `count` bytes of `WBUF` from `j` on all equal `v` (42_padding.md R108, the loop)? It stops at the first that
differs. -/
def padBytesMatch (v : Byte) : Nat → Nat → State → Outcome Bool Fault Refusal
  | _, 0, _ => .next true
  | j, count + 1, s =>
    andThen (memReadByte .wbuf j s) fun b =>
      if b = v then padBytesMatch v (j + 1) count s else .next false

/-- `unpad` succeeds with what `OBUF` then holds, or fails and writes the status flags (42_padding.md R103). -/
def unpadOk (m : Nat) (s : State) : Outcome (State × Option Status) Fault Refusal :=
  andThen (keepFirst m s) fun t => .next (t, none)

/-- `fail PADDING_ERROR(cause)` inside `unpad`: `ST` is written, `OBUF` is not. -/
def unpadFail (cause : BitVec 4) (s : State) : Outcome (State × Option Status) Fault Refusal :=
  .next ({ s with st := paddingError cause }, some (paddingError cause))

/-- `PAD_CHECK = NONE` (42_padding.md R106); `L` is the length of `WBUF` and `NR` holds the last byte. A last byte of 0
gives the whole input or nothing, by a free choice (log 8). -/
def unpadUnchecked (L : Nat) (s : State) : Outcome (State × Option Status) Fault Refusal :=
  if s.nr.toNat = 0 then unpadOk (if Config.unpadZeroKeepsAll s.draws then L else 0) s
  else if s.nr.toNat ≤ L then unpadOk (L - s.nr.toNat) s
  else unpadOk 0 s

/-- `PAD_CHECK = RANGE` (42_padding.md R107). -/
def unpadRange (L : Nat) (s : State) : Outcome (State × Option Status) Fault Refusal :=
  if s.nr.toNat = 0 ∨ L < s.nr.toNat then unpadFail causePadRange s
  else unpadOk (L - s.nr.toNat) s

/-- `PAD_CHECK = FULL` (42_padding.md R108): the range test first, then the comparison of the last `NR` bytes. -/
def unpadFull (L : Nat) (s : State) : Outcome (State × Option Status) Fault Refusal :=
  if s.nr.toNat = 0 ∨ blockSize < s.nr.toNat ∨ L < s.nr.toNat then unpadFail causePadRange s
  else
    andThen (padBytesMatch s.nr (L - s.nr.toNat) s.nr.toNat s) fun same =>
      if same then unpadOk (L - s.nr.toNat) s else unpadFail causePadMismatch s

/-- `unpad` over the state (42_padding.md R103): `NR` is the last byte of `WBUF`, then by PAD_CHECK. An empty `WBUF` has
no last byte and is refused (R109). -/
def unpadUnit (s : State) : Outcome (State × Option Status) Fault Refusal :=
  let L := s.wbuf.size
  if L = 0 then .refused .unpadOfEmpty
  else
    andThen (memReadByte .wbuf (L - 1) s) fun n =>
      match s.params.padCheck with
      | .unchecked => unpadUnchecked L { s with nr := n }
      | .range => unpadRange L { s with nr := n }
      | .full => unpadFull L { s with nr := n }

/-- What a unit-level function that may fail returns to its caller: `OBUF` or the failure (00_scope.md R12). -/
def returnOf (t : State) : Option Status → Return
  | none => .bytes t.obuf.bytes
  | some st => .failed st

/-- `pad(d)` (42_padding.md R100). -/
def execPad (d : List Byte) (s : State) : Outcome State Fault Refusal :=
  andThen (padUnit (stageData d s)) fun t => .next { t with ret := .bytes t.wbuf.bytes }

/-- `unpad(p)` (42_padding.md R103). A free value may be drawn, so the counter of free values advances. -/
def execUnpad (p : List Byte) (s : State) : Outcome State Fault Refusal :=
  andThen (unpadUnit (stageWork p s)) fun r => .next { r.1 with ret := returnOf r.1 r.2, draws := s.draws + 1 }

end Sys2Proof.Machine
end

