-- ==== Sys2Proof/Machine/Transform.lean ====
section
/-! DEFINITION. Block Transform (41_block_transform.md): exclusive-or of block and key, and nothing else (R92). -/

namespace Sys2Proof.Machine

open Host (Outcome)

/-- `transform(x, k)` (41_block_transform.md R90): bit i of the result is bit i of x xor bit i of k. Both directions
use it (R91). -/
def transform (x k : Word) : Word := x ^^^ k

/-- The transform unit: `YR <- XR xor KEYR`; it touches nothing else (41_block_transform.md R90). -/
def transformUnit (s : State) : State := { s with yr := transform s.xr s.keyr }

/-- `transform x k` (41_block_transform.md R90): the operands stand in `XR` and `KEYR` (log 6). -/
def execTransform (x k : Word) (s : State) : Outcome State Fault Refusal :=
  let t := transformUnit { s with xr := x, keyr := k }
  .next { t with ret := .word t.yr }

end Sys2Proof.Machine
end

