-- ==== Sys2Proof/Machine/Ecb.lean ====
section
/-! DEFINITION. Mode Driver (43_ecb_mode.md): the per-block step, the loop, `ecbEncrypt` and `ecbDecrypt`. -/

namespace Sys2Proof.Machine

open Host (Outcome)

/-- The per-block step on a lane (43_ecb_mode.md R120): it reads block `i` of `src` and `KEYR`, and writes block `i` of
`dst` and the lane's `XR` and `YR`; nothing else. All eight bytes are read before one is written (20_memory.md R48). -/
def blockStepOn (lane : Nat) (src dst : Space) (i : Nat) (s : State) : Outcome State Fault Refusal :=
  andThen (memRead src (blockSize * i) blockSize s) fun b =>
    let x := toWord b
    let y := transform x s.keyr
    match intToBytes y.toNat blockSize with
    | some c => .next (memWrite dst (blockSize * i) c ((s.setXR lane x).setYR lane y))
    | none => .fault .codecRange

/-- The reference schedule's lane for a block (log 11); with NLANES = 1 it is lane 0. -/
def laneOf (s : State) (i : Nat) : Nat := i % s.params.nlanes

/-- `blockStep(SRC, DST, i)` (43_ecb_mode.md R120). -/
def blockStep (src dst : Space) (i : Nat) (s : State) : Outcome State Fault Refusal :=
  blockStepOn (laneOf s i) src dst i s

/-- The loop of 43_ecb_mode.md R121, with `n` blocks to go: `blockStep(SRC, DST, IDX)`, `IDX <- IDX + 1`. -/
def blockLoop (src dst : Space) : Nat → State → Outcome State Fault Refusal
  | 0, s => .next s
  | n + 1, s =>
    andThen (blockStep src dst s.idx s) fun t => blockLoop src dst n { t with idx := t.idx + 1 }

/-- `NBLK <- len(SRC) / 8`, `IDX <- 0`, and the loop until `IDX = NBLK` (43_ecb_mode.md R121), into an empty `dst`. -/
def runBlocks (src dst : Space) (s : State) : Outcome State Fault Refusal :=
  let n := (s.space src).size / blockSize
  blockLoop src dst n ({ s with nblk := n, idx := 0 }.setSpace dst [])

/-- The block steps in any order on any lanes (43_ecb_mode.md R123): a schedule lists (lane, block) pairs. The commands
use the ascending order; this definition is what order independence is stated about. -/
def runSchedule (src dst : Space) : List (Nat × Nat) → State → Outcome State Fault Refusal
  | [], s => .next s
  | (lane, i) :: rest, s => andThen (blockStepOn lane src dst i s) (runSchedule src dst rest)

/-- `ecbEncrypt` over the state (43_ecb_mode.md R116): the key, the pad, the blocks from `WBUF` to `OBUF`. -/
def ecbEncryptUnit (s : State) : Outcome State Fault Refusal :=
  andThen (loadKey s) fun t => andThen (padUnit t) (runBlocks .wbuf .obuf)

/-- `ecbDecrypt` over the state (43_ecb_mode.md R117, R118): a misaligned length fails and no block is processed; then
the key, the blocks from `DBUF` to `WBUF`, and `unpad` once on the full result. -/
def ecbDecryptUnit (s : State) : Outcome (State × Option Status) Fault Refusal :=
  if s.dbuf.size % blockSize ≠ 0 then
    .next ({ s with st := invalidArgument causeDataLength }, some (invalidArgument causeDataLength))
  else
    andThen (loadKey s) fun t => andThen (runBlocks .dbuf .wbuf t) unpadUnit

/-- `ecbEncrypt(d, key)` at unit level (43_ecb_mode.md R116; 93_implementation_defined.md U8 for the key). -/
def execEcbEncrypt (d key : List Byte) (s : State) : Outcome State Fault Refusal :=
  if key.length = keySize then
    andThen (ecbEncryptUnit (stageKey key (stageData d s))) fun t => .next { t with ret := .bytes t.obuf.bytes }
  else .refused .unitKeyLength

/-- `ecbDecrypt(c, key)` at unit level (43_ecb_mode.md R117 to R119; 93_implementation_defined.md U8 for the key). -/
def execEcbDecrypt (c key : List Byte) (s : State) : Outcome State Fault Refusal :=
  if key.length = keySize then
    andThen (ecbDecryptUnit (stageKey key (stageData c s))) fun r =>
      .next { r.1 with ret := returnOf r.1 r.2, draws := s.draws + 1 }
  else .refused .unitKeyLength

end Sys2Proof.Machine
end

