-- ==== Sys2Proof/Machine/Commands.lean ====
section
/-! DEFINITION. Public Wrappers (44_commands.md): the four commands. Each first validates lengths from KLEN and DLEN
alone, then computes (R130), and ends with one response (R137). -/

namespace Sys2Proof.Machine

open Host (Outcome)

/-- The datapath of a block command (44_commands.md R131): `KEYR`, `XR`, `YR`, and eight bytes to `OBUF`. It is one
block step at block 0 and leaves `IDX` and `NBLK` alone (10_state.md R25). -/
def blockDatapath (s : State) : Outcome State Fault Refusal :=
  andThen (loadKey s) fun t => blockStepOn 0 .dbuf .obuf 0 { t with obuf := [] }

/-- A block command after acceptance (44_commands.md R131, R132). -/
def blockCommand (s : State) : Outcome State Fault Refusal :=
  let cause := lengthCause (keyLengthBad s.klen) (blockLengthBad s.dlen)
  if cause ≠ 0 then .next (raise (invalidArgument cause) s)
  else andThen (blockDatapath s) fun t => .next (respond t)

/-- `encryptBytes` after acceptance (44_commands.md R133). -/
def encryptBytesCommand (s : State) : Outcome State Fault Refusal :=
  let cause := lengthCause (keyLengthBad s.klen) false
  if cause ≠ 0 then .next (raise (invalidArgument cause) s)
  else andThen (ecbEncryptUnit s) fun t => .next (respond t)

/-- `decryptBytes` after acceptance (44_commands.md R134): a failure of `ecbDecrypt` is raised. -/
def decryptBytesCommand (s : State) : Outcome State Fault Refusal :=
  let cause := lengthCause (keyLengthBad s.klen) (cipherLengthBad s.dlen)
  if cause ≠ 0 then .next (raise (invalidArgument cause) s)
  else
    andThen (ecbDecryptUnit s) fun r =>
      match r.2 with
      | none => .next (respond r.1)
      | some st => .next (raise st r.1)

/-- `encryptBlock plaintext, key` (44_commands.md R131). -/
def execEncryptBlock (plaintext key : List Byte) (s : State) : Outcome State Fault Refusal :=
  andThen (enter (Cmd.of opEncryptBlock plaintext key) s) blockCommand

/-- `decryptBlock ciphertext, key` (44_commands.md R132): "identical to rule R131, line for line". -/
def execDecryptBlock (ciphertext key : List Byte) (s : State) : Outcome State Fault Refusal :=
  andThen (enter (Cmd.of opDecryptBlock ciphertext key) s) blockCommand

/-- `encryptBytes data, key` (44_commands.md R133). -/
def execEncryptBytes (data key : List Byte) (s : State) : Outcome State Fault Refusal :=
  andThen (enter (Cmd.of opEncryptBytes data key) s) encryptBytesCommand

/-- `decryptBytes data, key` (44_commands.md R134). -/
def execDecryptBytes (data key : List Byte) (s : State) : Outcome State Fault Refusal :=
  andThen (enter (Cmd.of opDecryptBytes data key) s) decryptBytesCommand

end Sys2Proof.Machine
end

