-- ==== Sys2Proof/Machine/Dispatch.lean ====
section
/-! DEFINITION. The dispatch: one arm per row of spec/opcode_table.json. -/

namespace Sys2Proof.Machine

def exec (i : Instr) (s : State) : Host.Outcome State Fault Refusal :=
  match i with
  | .encryptBlock plaintext key => Sys2Proof.Machine.execEncryptBlock plaintext key s
  | .decryptBlock ciphertext key => Sys2Proof.Machine.execDecryptBlock ciphertext key s
  | .encryptBytes data key => Sys2Proof.Machine.execEncryptBytes data key s
  | .decryptBytes data key => Sys2Proof.Machine.execDecryptBytes data key s
  | .bytesToInt b => Sys2Proof.Machine.execBytesToInt b s
  | .intToBytes v L => Sys2Proof.Machine.execIntToBytes v L s
  | .transform x k => Sys2Proof.Machine.execTransform x k s
  | .pad d => Sys2Proof.Machine.execPad d s
  | .unpad p => Sys2Proof.Machine.execUnpad p s
  | .ecbEncrypt d key => Sys2Proof.Machine.execEcbEncrypt d key s
  | .ecbDecrypt c key => Sys2Proof.Machine.execEcbDecrypt c key s

end Sys2Proof.Machine
end

