-- ==== Sys2Proof/Machine/HostPort.lean ====
section
/-! DEFINITION. The host's side of a step (60_exceptions.md R166): presenting a command to an idle core, waiting for
its response, and reset. -/

namespace Sys2Proof.Machine

open Host (Outcome)

/-- Is the host asserting reset now (70_reset_and_hazards.md R176)? -/
def State.resetAsserted (s : State) : Bool :=
  match s.todo with
  | .reset :: _ => true
  | _ => false

/-- Reset is asserted: the action is done with, the core goes through reset (70_reset_and_hazards.md R175, R176). -/
def State.takeReset (s : State) : State := resetLine { s with todo := s.todo.tail }

/-- A step of an idle core (10_state.md R22): what the host does next. With nothing to do the core stays as it is
(log 2). A presented tuple that is no command is refused at the boundary (30_encoding.md R62, 00_scope.md R10). -/
def hostStep (s : State) : Outcome State Fault Refusal :=
  match s.todo with
  | [] => .next s
  | .await :: rest => .next { s with todo := rest }
  | .reset :: _ => .next s.takeReset
  | .present c :: rest =>
    match decode s.params c with
    | .ok _ => .next (State.accept { s with todo := rest } c)
    | .error e => .refused (.notACommand e)

/-- The state in which a command has been accepted and runs at the very next step: the core holds it in the latch, and
the host is not asserting reset (log 2). -/
def State.withCommand (s : State) (c : Cmd) : State :=
  State.accept { s with todo := s.todo.dropWhile (fun a => decide (a = .reset)) } c

end Sys2Proof.Machine
end

