-- ==== Sys2Proof/Machine/Step.lean ====
section
/-! DEFINITION. One step. An idle core does what the host asks of it; a core with a command in flight decodes the latch
and runs that command to its response, unless the host asserts reset. -/

namespace Sys2Proof.Machine

/-- One step of the machine (10_state.md R20, R22; 30_encoding.md R72; 10_state.md R32 for running a command in one
step). -/
def step (s : State) : Host.Outcome State Fault Refusal :=
  match s.phase with
  | .idle => hostStep s
  | .busy =>
    if s.resetAsserted then .next s.takeReset
    else
      match decode s.params s.latched with
      | .ok i => exec i s
      | .error e => .refused (.notACommand e)

/-- The state whose next step runs the instruction of an opcode-table word: the latch holds its command tuple. -/
def State.withFetchWord (s : State) (_nbits w : Nat) : State := s.withCommand (cmdOfTableWord w)

end Sys2Proof.Machine
end

