-- ==== Sys2Proof/Machine/BigStep.lean ====
section
/-! DEFINITION. The big-step description (10_state.md R32): each command as one function from its fields to its
response, with no register and no buffer. The machine does not use it; statements say the two agree. -/

namespace Sys2Proof.Machine

/-- The eight bytes of a 64-bit value, big-endian (40_codec.md R81 at length 8). -/
def wordBytes (w : Word) : List Byte := (intToBytes w.toNat blockSize).getD []

/-- One block: "convert to integer, apply Block Transform with `key`, convert back" (43_ecb_mode.md R120). -/
def blockBytes (k : Word) (b : List Byte) : List Byte := wordBytes (transform (toWord b) k)

/-- `n` consecutive blocks of a sequence, transformed and concatenated in block order (43_ecb_mode.md R116, R122). -/
def ecbBytes (k : Word) : Nat → List Byte → List Byte
  | 0, _ => []
  | n + 1, l => blockBytes k (l.take blockSize) ++ ecbBytes k n (l.drop blockSize)

/-- `pad(d)` with block size 8 (42_padding.md R100). -/
def padBytes (d : List Byte) : List Byte :=
  d ++ List.replicate (padLength blockSize d.length) (BitVec.ofNat 8 (padLength blockSize d.length))

/-- `unpad(p)` by PAD_CHECK on a sequence that is not empty, with last byte `n` (42_padding.md R112, the table).
`keepAll` is the free choice of R106 (log 8). -/
def unpadBytes (check : PadCheck) (keepAll : Bool) (p : List Byte) (n : Nat) : Except Status (List Byte) :=
  match check with
  | .unchecked => .ok (if n = 0 then (if keepAll then p else []) else p.take (p.length - n))
  | .range =>
    if n = 0 ∨ p.length < n then .error (paddingError causePadRange) else .ok (p.take (p.length - n))
  | .full =>
    if n = 0 ∨ blockSize < n ∨ p.length < n then .error (paddingError causePadRange)
    else if ∀ b ∈ p.drop (p.length - n), b = BitVec.ofNat 8 n then .ok (p.take (p.length - n))
    else .error (paddingError causePadMismatch)

/-- The response of a completed command (30_encoding.md R64). -/
def okResponse (out : List Byte) : Response := { cls := .ok, cause := 0, olen := out.length, out := out }

/-- The response of an error (60_exceptions.md R158): class and cause, no output. -/
def errorResponse (st : Status) : Response := { cls := st.cls, cause := st.cause, olen := 0, out := [] }

/-- The response of a block command (44_commands.md R131, R132). -/
def blockAnswer (data key : List Byte) : Response :=
  let cause := lengthCause (keyLengthBad key.length) (blockLengthBad data.length)
  if cause ≠ 0 then errorResponse (invalidArgument cause)
  else okResponse (blockBytes (toWord key) data)

/-- The response of `encryptBytes` (44_commands.md R133). -/
def encryptBytesAnswer (data key : List Byte) : Response :=
  let cause := lengthCause (keyLengthBad key.length) false
  if cause ≠ 0 then errorResponse (invalidArgument cause)
  else okResponse (ecbBytes (toWord key) ((padBytes data).length / blockSize) (padBytes data))

/-- The response of `decryptBytes` (44_commands.md R134). -/
def decryptBytesAnswer (check : PadCheck) (keepAll : Bool) (data key : List Byte) : Response :=
  let cause := lengthCause (keyLengthBad key.length) (cipherLengthBad data.length)
  if cause ≠ 0 then errorResponse (invalidArgument cause)
  else
    let p := ecbBytes (toWord key) (data.length / blockSize) data
    match unpadBytes check keepAll p (p.getLastD 0).toNat with
    | .ok d => okResponse d
    | .error st => errorResponse st

/-- The response of each command; the unit-level functions have none (30_encoding.md R68). -/
def answer (check : PadCheck) (keepAll : Bool) : Instr → Option Response
  | .encryptBlock d k => some (blockAnswer d k)
  | .decryptBlock d k => some (blockAnswer d k)
  | .encryptBytes d k => some (encryptBytesAnswer d k)
  | .decryptBytes d k => some (decryptBytesAnswer check keepAll d k)
  | .bytesToInt _ => none
  | .intToBytes _ _ => none
  | .transform _ _ => none
  | .pad _ => none
  | .unpad _ => none
  | .ecbEncrypt _ _ => none
  | .ecbDecrypt _ _ => none

end Sys2Proof.Machine
end

