-- ==== Sys2Proof/Machine/Assembler.lean ====
section
/-! DEFINITION. The written forms of 30_encoding.md R70: a command as mnemonic, data operand, key operand, and as the
tuple of R60; a response as class and causes, and as the tuple of R64; and the reader of written commands. Text is a
list of characters. The unit-level functions have no written form (R68, R70). -/

namespace Sys2Proof.Machine

/-- A hexadecimal digit, lower case (00_scope.md R12, the examples of R70; log 16). -/
def hexDigit (n : Nat) : Char := Char.ofNat (if n < 10 then 48 + n else 87 + n)

/-- The value of a lower-case hexadecimal digit. -/
def hexValue (c : Char) : Option Nat :=
  if 48 ≤ c.toNat ∧ c.toNat ≤ 57 then some (c.toNat - 48)
  else if 97 ≤ c.toNat ∧ c.toNat ≤ 102 then some (c.toNat - 87)
  else none

/-- A byte sequence in hexadecimal, two digits per byte, first byte first (00_scope.md R12). -/
def writeHex : List Byte → List Char
  | [] => []
  | b :: l => hexDigit (b.toNat / 16) :: hexDigit (b.toNat % 16) :: writeHex l

/-- Read a hexadecimal byte string. -/
def readHex : List Char → Option (List Byte)
  | [] => some []
  | [_] => none
  | a :: b :: t =>
    match hexValue a, hexValue b, readHex t with
    | some x, some y, some l => some (BitVec.ofNat 8 (16 * x + y) :: l)
    | _, _, _ => none

/-- The two characters that write the empty sequence (30_encoding.md R70). -/
def emptyText : List Char := ['[', ']']

/-- An operand: a hexadecimal byte string, the empty sequence written `[]` (30_encoding.md R70). -/
def writeOperand : List Byte → List Char
  | [] => emptyText
  | b :: l => writeHex (b :: l)

/-- Read an operand. -/
def readOperand (t : List Char) : Option (List Byte) :=
  if t = emptyText then some [] else if t = [] then none else readHex t

/-- The mnemonics, unchanged and case-sensitive (30_encoding.md R70). -/
def mnemonic (op : BitVec 2) : List Char :=
  if op = opEncryptBlock then "encryptBlock".toList
  else if op = opDecryptBlock then "decryptBlock".toList
  else if op = opEncryptBytes then "encryptBytes".toList
  else "decryptBytes".toList

/-- The operation code of a mnemonic. -/
def readMnemonic (t : List Char) : Option (BitVec 2) :=
  if t = "encryptBlock".toList then some opEncryptBlock
  else if t = "decryptBlock".toList then some opDecryptBlock
  else if t = "encryptBytes".toList then some opEncryptBytes
  else if t = "decryptBytes".toList then some opDecryptBytes
  else none

/-- A command as it is written: mnemonic, data operand, comma, key operand (30_encoding.md R70, R63). -/
def writeCmd (c : Cmd) : List Char :=
  mnemonic c.op ++ ' ' :: (writeOperand c.data ++ ',' :: ' ' :: writeOperand c.key)

/-- An instruction as it is written, where it has an encoding. -/
def writeInstr (i : Instr) : Option (List Char) := (encode i).map writeCmd

/-- Read a written command. -/
def readInstr (t : List Char) : Option Instr :=
  match t.dropWhile (fun ch => decide (ch ≠ ' ')) with
  | ' ' :: rest =>
    match rest.dropWhile (fun ch => decide (ch ≠ ',')) with
    | ',' :: ' ' :: keyText =>
      match readMnemonic (t.takeWhile fun ch => decide (ch ≠ ' ')),
          readOperand (rest.takeWhile fun ch => decide (ch ≠ ',')), readOperand keyText with
      | some op, some data, some key => some (selectCommand op data key)
      | _, _, _ => none
    | _ => none
  | _ => none

/-- `n` bits, most significant first. -/
def writeBits (w : Nat) (v : BitVec w) : List Char :=
  (List.range w).map fun k => if v.getLsbD (w - 1 - k) then '1' else '0'

/-- The tuple form of a command: `op=… klen=… dlen=… key=… data=…` (30_encoding.md R70). -/
def writeCmdTuple (c : Cmd) : List Char :=
  "op=".toList ++ writeBits 2 c.op ++ " klen=".toList ++ Nat.toDigits 10 c.klen ++ " dlen=".toList
    ++ Nat.toDigits 10 c.dlen ++ " key=".toList ++ writeHex c.key ++ " data=".toList ++ writeHex c.data

/-- The names of the causes that are set, in the order of their bits (60_exceptions.md R150). -/
def causeNames (cause : BitVec 4) : List (List Char) :=
  (if cause.getLsbD 0 then ["KEY_LENGTH".toList] else [])
    ++ (if cause.getLsbD 1 then ["DATA_LENGTH".toList] else [])
    ++ (if cause.getLsbD 2 then ["PAD_RANGE".toList] else [])
    ++ (if cause.getLsbD 3 then ["PAD_MISMATCH".toList] else [])

/-- Names with commas between them. -/
def joinNames : List (List Char) → List Char
  | [] => []
  | [n] => n
  | n :: m :: r => n ++ ',' :: joinNames (m :: r)

/-- The cause list in its braces (characters 123 and 125). -/
def writeCauses (cause : BitVec 4) : List Char :=
  Char.ofNat 123 :: (joinNames (causeNames cause) ++ [Char.ofNat 125])

/-- A response as it is written: `OK <hex>`, `OK []`, or the class and its causes (30_encoding.md R70). -/
def writeResponse (r : Response) : List Char :=
  match r.cls with
  | .ok => "OK ".toList ++ writeOperand r.out
  | .invalidArgument => "INVALID_ARGUMENT".toList ++ writeCauses r.cause
  | .paddingError => "PADDING_ERROR".toList ++ writeCauses r.cause

/-- The tuple form of a response (95_test_vectors.md Part 3): the output is written where there is one. -/
def writeResponseTuple (r : Response) : List Char :=
  "class=".toList ++ writeBits 2 r.cls.code ++ " cause=".toList ++ writeBits 4 r.cause ++ " olen=".toList
    ++ Nat.toDigits 10 r.olen ++ (match r.out with
      | [] => []
      | b :: l => " out=".toList ++ writeHex (b :: l))

end Sys2Proof.Machine
end

