-- ==== Sys2Proof/Safety.lean ====
section
/-! DEFINITION. What counts as a good state and a legal response, in the terms the statements use. -/

namespace Sys2Proof.Machine

/-- The legal (class, cause) pairs (60_exceptions.md R150): exactly six. -/
def legalStatus (cls : StatusClass) (cause : BitVec 4) : Prop :=
  (cls = .ok ∧ cause = 0b0000#4)
    ∨ (cls = .invalidArgument ∧ (cause = 0b0001#4 ∨ cause = 0b0010#4 ∨ cause = 0b0011#4))
    ∨ (cls = .paddingError ∧ (cause = 0b0100#4 ∨ cause = 0b1000#4))

/-- A response of this core: a legal pair, a true length, and no output unless OK (30_encoding.md R64,
60_exceptions.md R150). -/
def legalResponse (r : Response) : Prop :=
  legalStatus r.cls r.cause ∧ r.olen = r.out.length ∧ (r.cls ≠ .ok → r.out = [])

/-- The command runs in `s` and gives the host exactly one response, `r`, and the core is idle again (10_state.md R22,
44_commands.md R137). -/
def State.Answers (s : State) (i : Instr) (r : Response) : Prop :=
  ∃ t, exec i s = .next t ∧ t.phase = .idle ∧ t.responses = s.responses ++ [r]

/-- A byte space with no gap: it is the sequence of its bytes from address 0 (20_memory.md R40). -/
def Memory.dense (m : Memory) : Prop := m = Memory.ofBytes m.bytes

/-- The states a run can be in: every byte space canonical and without gaps, one register pair per lane (10_state.md
R24), a formed command in the latch while BUSY (10_state.md R23), and only legal responses given to the host. -/
structure State.Inv (s : State) : Prop where
  kbuf_wf : s.kbuf.wf = true
  dbuf_wf : s.dbuf.wf = true
  wbuf_wf : s.wbuf.wf = true
  obuf_wf : s.obuf.wf = true
  kbuf_dense : s.kbuf.dense
  dbuf_dense : s.dbuf.dense
  wbuf_dense : s.wbuf.dense
  obuf_dense : s.obuf.dense
  lane_registers : s.lanes.length = s.params.nlanes - 1
  latch_formed : s.phase = .busy → s.latched.wf s.params = true
  responses_legal : ∀ r ∈ s.responses, legalResponse r

/-- What the spec gives the core between commands and the host can never see (10_state.md R32): everything but the
parameters, the host agent and the free-value counter. Two states agree on it when every piece of it is the same. -/
structure State.SameCore (s t : State) : Prop where
  params : s.params = t.params
  phase : s.phase = t.phase
  latch : s.op = t.op ∧ s.klen = t.klen ∧ s.dlen = t.dlen
  spaces : ∀ S, s.space S = t.space S
  keyr : s.keyr = t.keyr
  lane0 : s.xr = t.xr ∧ s.yr = t.yr
  lanes : s.lanes = t.lanes
  nr : s.nr = t.nr
  sequencing : s.idx = t.idx ∧ s.nblk = t.nblk
  st : s.st = t.st
  ret : s.ret = t.ret

end Sys2Proof.Machine
end

