-- ==== Sys2Proof/Certificates/Slice0/Obligations.lean ====
section
/-! DEFINITION. The statements for the provers, from the numbered rules of spec/. `s.answerWith r` is the state after a
response `r`: the response is given to the host, the phase is IDLE, the parameters and what the host does next are
unchanged, the free-value counter advances, and every other piece of state is a free value (10_state.md R31; the
model's form of "unspecified" is log 4). So a conclusion `exec i s = .next (s.answerWith r)` says the whole next state,
its frame included. `s.Answers i r` (Safety) says of the response alone that it is given, once, and the core is idle. -/

open Sys2Proof Sys2Proof.Machine

/-! ### Encoding -/

/-- 30_encoding.md R61 and R66: `op[1]` is the granularity, `op[0]` the direction; every well-formed tuple selects
exactly one command. -/
def Obligations.EveryFormedTupleSelectsOneCommand : Prop :=
  ∀ (p : Params) (c : Cmd), c.wf p = true →
    (c.op.getLsbD 1 = false → c.op.getLsbD 0 = false →
      c.op = 0b00#2 ∧ decode p c = .ok (.encryptBlock c.data c.key)) ∧
    (c.op.getLsbD 1 = false → c.op.getLsbD 0 = true →
      c.op = 0b01#2 ∧ decode p c = .ok (.decryptBlock c.data c.key)) ∧
    (c.op.getLsbD 1 = true → c.op.getLsbD 0 = false →
      c.op = 0b10#2 ∧ decode p c = .ok (.encryptBytes c.data c.key)) ∧
    (c.op.getLsbD 1 = true → c.op.getLsbD 0 = true →
      c.op = 0b11#2 ∧ decode p c = .ok (.decryptBytes c.data c.key)) ∧
    ∃! i : Instr, decode p c = .ok i

/-- 30_encoding.md R62, 00_scope.md R10: a tuple that is not formed is turned away, by name; nothing else is. -/
def Obligations.DecoderTurnsAwayUnformedTuples : Prop :=
  ∀ (p : Params) (c : Cmd),
    (c.klen ≠ c.key.length → decode p c = .error .keyBytesDiffer) ∧
    (c.klen = c.key.length → c.dlen ≠ c.data.length → decode p c = .error .dataBytesDiffer) ∧
    (c.klen = c.key.length → c.dlen = c.data.length → Params.admits p.maxKlen c.klen = false →
      decode p c = .error .keyTooLong) ∧
    (c.klen = c.key.length → c.dlen = c.data.length → Params.admits p.maxKlen c.klen = true →
      Params.admits p.maxDlen c.dlen = false → decode p c = .error .dataTooLong) ∧
    ((∃ i, decode p c = .ok i) ↔ c.wf p = true)

/-- Decoding and encoding agree, both ways, for every instruction and every operand; the seven unit-level functions have
no encoding (30_encoding.md R68). -/
def Obligations.DecodeAndEncodeAgree : Prop :=
  (∀ (p : Params) (i : Instr) (c : Cmd), i.wf p = true → encode i = some c → c.wf p = true ∧ decode p c = .ok i) ∧
  (∀ (p : Params) (c : Cmd) (i : Instr), decode p c = .ok i → i.wf p = true ∧ encode i = some c) ∧
  (∀ i : Instr, encode i = none ↔ ∀ (p : Params) (c : Cmd), decode p c ≠ .ok i)

/-- 30_encoding.md R70: a written command reads back as itself, and every command has a written form. -/
def Obligations.WrittenCommandsReadBack : Prop :=
  ∀ (i : Instr) (c : Cmd), encode i = some c → ∃ t, writeInstr i = some t ∧ readInstr t = some i

/-- Words written out by hand decode to the commands they stand for. The four operation codes are those of
30_encoding.md R61; that a table word means empty operands, and that a word with a bit above `op` is refused, is the
model's choice (log 1). The last tuple is written from the format of R60 and R62; it is no vector of the spec. -/
def Obligations.OpcodeWordsDecode : Prop :=
  decodeTableWord 8 0b00 = some (.encryptBlock [] []) ∧ decodeTableWord 8 0b01 = some (.decryptBlock [] []) ∧
  decodeTableWord 8 0b10 = some (.encryptBytes [] []) ∧ decodeTableWord 8 0b11 = some (.decryptBytes [] []) ∧
  decodeTableWord 8 0b100 = none ∧
  decode Params.hardware { op := 0b10#2, klen := 5, dlen := 2, key := [0x73, 0x68, 0x6f, 0x72, 0x74], data := [0x68, 0x65] }
    = .ok (.encryptBytes [0x68, 0x65] [0x73, 0x68, 0x6f, 0x72, 0x74])

/-! ### The step -/

/-- A step runs the decoded instruction: with a command in flight and no reset asserted, `step` is `exec` of what the
latch decodes to, at that state, with nothing added (a whole command in one step is log 5). That a latch which holds no
command is refused by name is the model's choice for states that no run reaches (log 17). -/
def Obligations.StepRunsTheLatchedCommand : Prop :=
  ∀ s : State, s.phase = .busy → s.resetAsserted = false →
    (∀ i, decode s.params s.latched = .ok i → step s = exec i s) ∧
    (∀ e, decode s.params s.latched = .error e → step s = .refused (.notACommand e))

/-- 10_state.md R22, R23, R26: an idle core accepts the command the host presents: BUSY, the latch holds the command, the
status is OK with no cause, and nothing else changes. -/
def Obligations.IdleCoreAcceptsThePresentedCommand : Prop :=
  ∀ (s : State) (c : Cmd) (rest : List HostAction) (i : Instr), s.phase = .idle → s.todo = .present c :: rest →
    decode s.params c = .ok i →
    ∃ t, step s = .next t ∧ t.latched = c ∧
      t = { s with
        phase := .busy, op := c.op, klen := c.klen, dlen := c.dlen
        kbuf := Memory.ofBytes c.key, dbuf := Memory.ofBytes c.data
        st := { cls := .ok, cause := 0b0000#4 }, todo := rest }

/-- 10_state.md R22, 70_reset_and_hazards.md R180: a busy core accepts nothing. Its step ends in IDLE, consumes none of
the host's presented commands, and gives exactly one response, or none when reset drops the command (R176). -/
def Obligations.BusyCoreAcceptsNothing : Prop :=
  ∀ s t : State, s.phase = .busy → step s = .next t →
    t.phase = .idle ∧
    (s.resetAsserted = false → t.todo = s.todo ∧ ∃ r, t.responses = s.responses ++ [r]) ∧
    (s.resetAsserted = true → t.todo = s.todo.tail ∧ t.responses = s.responses)

/-- An idle core with nothing presented stays as it is, and a host that waits changes nothing but its own list
(70_reset_and_hazards.md R175: "the core runs nothing until the host presents a command"; the form is log 2). -/
def Obligations.IdleCoreWaitsForTheHost : Prop :=
  ∀ s : State, s.phase = .idle →
    (s.todo = [] → step s = .next s) ∧
    (∀ rest, s.todo = .await :: rest → step s = .next { s with todo := rest })

/-- 70_reset_and_hazards.md R175, R176: reset, in any phase, leaves the core idle, gives no response, and keeps the
parameters; a command in flight is dropped. -/
def Obligations.ResetDropsTheCommandInFlight : Prop :=
  ∀ (s : State) (rest : List HostAction), s.todo = .reset :: rest →
    ∃ t, step s = .next t ∧ t.phase = .idle ∧ t.responses = s.responses ∧ t.todo = rest ∧ t.params = s.params

/-- The reset state: IDLE with no command in flight and no response produced (70_reset_and_hazards.md R175), with this
hardware's parameters (00_scope.md, summary of parameters). -/
def Obligations.ResetStateIsIdle : Prop :=
  State.reset.phase = .idle ∧ State.reset.responses = [] ∧ State.reset.todo = [] ∧
  State.reset.params = { padCheck := .full, maxKlen := none, maxDlen := none, nlanes := 1 }

/-- A command that is not the one in flight has no step while the core is BUSY (10_state.md R22,
93_implementation_defined.md U11 "stuck"). -/
def Obligations.CommandWhileBusyIsStuck : Prop :=
  ∀ (s : State) (i : Instr) (c : Cmd), encode i = some c → s.phase = .busy → s.latched ≠ c →
    exec i s = .fault .commandWhileBusy

/-! ### Codec -/

/-- 40_codec.md R80: the value of a byte sequence is the sum of its bytes by place, first byte most significant; it is
returned, and nothing else changes. Leading zero bytes do not count; it is injective at one length; the empty sequence
gives 0. -/
def Obligations.BytesToIntReturnsTheBigEndianValue : Prop :=
  (∀ (b : List Byte) (s : State),
    exec (.bytesToInt b) s = .next { s with ret := .value (bytesToInt b) } ∧
    bytesToInt b = ∑ k ∈ Finset.range b.length, (b.getD k 0).toNat * 256 ^ (b.length - 1 - k) ∧
    bytesToInt b < 256 ^ b.length ∧
    bytesToInt (0 :: b) = bytesToInt b) ∧
  (∀ b c : List Byte, b.length = c.length → bytesToInt b = bytesToInt c → b = c) ∧
  bytesToInt [] = 0

/-- 40_codec.md R81: exactly `L` bytes, each the digit of its place, or the failure CODEC_RANGE; never a truncation. -/
def Obligations.IntToBytesGivesExactlyLBytesOrFails : Prop :=
  ∀ (v L : Nat) (s : State),
    (256 ^ L ≤ v → exec (.intToBytes v L) s = .next { s with ret := .codecRange }) ∧
    (v < 256 ^ L → ∃ b : List Byte, b.length = L ∧
      (∀ k < L, (b.getD k 0).toNat = v / 256 ^ (L - 1 - k) % 256) ∧
      exec (.intToBytes v L) s = .next { s with ret := .bytes b })

/-- 40_codec.md R82: the two functions are inverse at a fixed length. -/
def Obligations.CodecRoundTrips : Prop :=
  (∀ b : List Byte, intToBytes (bytesToInt b) b.length = some b) ∧
  (∀ v L : Nat, v < 256 ^ L → ∃ b, intToBytes v L = some b ∧ bytesToInt b = v)

/-- 20_memory.md R43 and 40_codec.md R84: byte `8i + j` of a buffer is bits 63 - 8j down to 56 - 8j of the 64-bit value of
its block `i`; a 64-bit accumulator that shifts left by 8 and ors in the next byte computes that value, with no overflow. -/
def Obligations.BlockValueBitPositions : Prop :=
  (∀ (l : List Byte) (i : Nat), 8 * i + 8 ≤ l.length →
    ∀ j < 8, (toWord ((l.drop (8 * i)).take 8)).extractLsb' (56 - 8 * j) 8 = l.getD (8 * i + j) 0) ∧
  (∀ b : List Byte, b.length = 8 →
    toWord b = b.foldl (fun (v : Word) (x : Byte) => (v <<< 8) ||| x.setWidth 64) 0 ∧ (toWord b).toNat = bytesToInt b)

/-! ### Transform -/

/-- 41_block_transform.md R90: with the operands in `XR` and `KEYR`, `transform` writes the exclusive-or to `YR` and
touches nothing else of the core (it returns the value: log 6); for other operands they are stood there first. The four
corner cases. -/
def Obligations.TransformWritesTheExclusiveOr : Prop :=
  (∀ (x k : Word) (s : State),
    exec (.transform x k) s = .next { s with xr := x, keyr := k, yr := x ^^^ k, ret := .word (x ^^^ k) } ∧
    (s.xr = x → s.keyr = k → exec (.transform x k) s = .next { s with yr := x ^^^ k, ret := .word (x ^^^ k) }) ∧
    ∀ j < 64, (transform x k).getLsbD j = (x.getLsbD j ^^ k.getLsbD j)) ∧
  (∀ x : Word, transform x 0 = x ∧ transform x (BitVec.allOnes 64) = ~~~x ∧ transform x x = 0 ∧ transform 0 x = x)

/-- 41_block_transform.md R93 (a) to (f). -/
def Obligations.TransformLaws : Prop :=
  (∀ x k : Word, transform (transform x k) k = x) ∧
  (∀ k : Word, Function.Bijective fun x : Word => transform x k) ∧
  (∀ x : Word, transform x 0 = x) ∧
  (∀ x k : Word, transform x k = x ↔ k = 0) ∧
  (∀ x k : Word, transform x k = transform k x) ∧
  (∀ x y k : Word, transform x k ^^^ transform y k = x ^^^ y) ∧
  (∀ x y k : Word, transform x k = transform y k ↔ x = y)

/-- 41_block_transform.md R94: through the codec, the transform is the byte-wise exclusive-or of block and key. -/
def Obligations.TransformIsByteWise : Prop :=
  (∀ (x k : Word) (X K Y : List Byte), intToBytes x.toNat 8 = some X → intToBytes k.toNat 8 = some K →
    intToBytes (transform x k).toNat 8 = some Y → ∀ j < 8, Y.getD j 0 = X.getD j 0 ^^^ K.getD j 0) ∧
  (∀ X K : List Byte, X.length = 8 → K.length = 8 →
    intToBytes (transform (toWord X) (toWord K)).toNat 8 = some (List.zipWith (· ^^^ ·) X K))

/-! ### Padding -/

/-- 42_padding.md R100: `pad` sets `NR` to `8 - (L mod 8)` and `WBUF` to the data and `NR` bytes of that value. The data
operand is stood in `DBUF` first (log 6). Nothing else changes; it never fails. -/
def Obligations.PadWritesNRAndWBUF : Prop :=
  ∀ (d : List Byte) (s : State) (n : Nat), n = 8 - d.length % 8 →
    exec (.pad d) s = .next
      { s with
        dbuf := Memory.ofBytes d, dlen := d.length, nr := BitVec.ofNat 8 n
        wbuf := Memory.ofBytes (d ++ List.replicate n (BitVec.ofNat 8 n))
        ret := .bytes (d ++ List.replicate n (BitVec.ofNat 8 n)) } ∧
    1 ≤ n ∧ n ≤ 8 ∧ (d.length % 8 = 0 → n = 8) ∧ (d.length % 8 = 7 → n = 1)

/-- 42_padding.md R101 (a) to (f); the table is the value of `n`. -/
def Obligations.PadProperties : Prop :=
  (∀ (d : List Byte) (n : Nat), n = 8 - d.length % 8 →
    1 ≤ n ∧ n ≤ 8 ∧
    (padBytes d).length = d.length + n ∧ (padBytes d).length = 8 * (d.length / 8) + 8 ∧
    (padBytes d).take d.length = d ∧
    (∀ b ∈ (padBytes d).drop d.length, b = BitVec.ofNat 8 n) ∧ (padBytes d).getLast? = some (BitVec.ofNat 8 n) ∧
    (padBytes d).length / 8 = d.length / 8 + 1) ∧
  (∀ d e : List Byte, padBytes d = padBytes e → d = e)

/-- 42_padding.md R102: the general `pad(d, bs)`, given a meaning for block sizes 1 to 255. That it answers none outside
them is 93_implementation_defined.md U15's "refuse" in the model's form (log 19). -/
def Obligations.GeneralPadNeedsBlockSize1To255 : Prop :=
  ∀ (bs : Nat) (d : List Byte),
    (1 ≤ bs → bs ≤ 255 → ∃ (p : List Byte) (n : Nat), padWith bs d = some p ∧ n = bs - d.length % bs ∧ 1 ≤ n ∧ n ≤ bs ∧
      p = d ++ List.replicate n (BitVec.ofNat 8 n) ∧ p.length % bs = 0 ∧ (p.getLastD 0).toNat = n) ∧
    (bs < 1 ∨ 255 < bs → padWith bs d = none) ∧
    padWith 8 d = some (padBytes d)

/-- 42_padding.md R106, PAD_CHECK = NONE: only the last byte is examined and no failure is raised. For a last byte of 0
the result is one of two, and which is left free (log 8). -/
def Obligations.UnpadUncheckedTrustsTheLastByte : Prop :=
  ∀ (p : List Byte) (s : State) (b : Byte), s.params.padCheck = .unchecked → p.getLast? = some b →
    ∃ d : List Byte,
      exec (.unpad p) s = .next
        { s with
          wbuf := Memory.ofBytes p, nr := b, obuf := Memory.ofBytes d, ret := .bytes d, draws := s.draws + 1 } ∧
      (1 ≤ b.toNat → b.toNat ≤ p.length → d = p.take (p.length - b.toNat)) ∧
      (p.length < b.toNat → d = []) ∧
      (b.toNat = 0 → d = p ∨ d = [])

/-- 42_padding.md R107, PAD_CHECK = RANGE. The operand in `WBUF` and the returned value are log 6; that a failure leaves
`OBUF` as it was is the model's choice (log 20). -/
def Obligations.UnpadRangeChecksTheLastByte : Prop :=
  ∀ (p : List Byte) (s : State) (b : Byte), s.params.padCheck = .range → p.getLast? = some b →
    (b.toNat = 0 ∨ p.length < b.toNat →
      exec (.unpad p) s = .next
        { s with
          wbuf := Memory.ofBytes p, nr := b, st := { cls := .paddingError, cause := 0b0100#4 }
          ret := .failed { cls := .paddingError, cause := 0b0100#4 }, draws := s.draws + 1 }) ∧
    (1 ≤ b.toNat → b.toNat ≤ p.length →
      exec (.unpad p) s = .next
        { s with
          wbuf := Memory.ofBytes p, nr := b, obuf := Memory.ofBytes (p.take (p.length - b.toNat))
          ret := .bytes (p.take (p.length - b.toNat)), draws := s.draws + 1 })

/-- 42_padding.md R108, PAD_CHECK = FULL, the setting of this hardware: the range test first, then every one of the last
`n` bytes. The operand in `WBUF` and the returned value are log 6; that a failure leaves `OBUF` as it was is the model's
choice (log 20). -/
def Obligations.UnpadFullChecksRangeThenEveryPadByte : Prop :=
  ∀ (p : List Byte) (s : State) (b : Byte), s.params.padCheck = .full → p.getLast? = some b →
    (b.toNat = 0 ∨ 8 < b.toNat ∨ p.length < b.toNat →
      exec (.unpad p) s = .next
        { s with
          wbuf := Memory.ofBytes p, nr := b, st := { cls := .paddingError, cause := 0b0100#4 }
          ret := .failed { cls := .paddingError, cause := 0b0100#4 }, draws := s.draws + 1 }) ∧
    (1 ≤ b.toNat → b.toNat ≤ 8 → b.toNat ≤ p.length → (∃ x ∈ p.drop (p.length - b.toNat), x ≠ b) →
      exec (.unpad p) s = .next
        { s with
          wbuf := Memory.ofBytes p, nr := b, st := { cls := .paddingError, cause := 0b1000#4 }
          ret := .failed { cls := .paddingError, cause := 0b1000#4 }, draws := s.draws + 1 }) ∧
    (1 ≤ b.toNat → b.toNat ≤ 8 → b.toNat ≤ p.length → (∀ x ∈ p.drop (p.length - b.toNat), x = b) →
      exec (.unpad p) s = .next
        { s with
          wbuf := Memory.ofBytes p, nr := b, obuf := Memory.ofBytes (p.take (p.length - b.toNat))
          ret := .bytes (p.take (p.length - b.toNat)), draws := s.draws + 1 })

/-- 42_padding.md R105: on well-formed padding every setting agrees, with no failure; and every padded sequence is of
this kind. -/
def Obligations.WellFormedPadsUnpadAlikeUnderEverySetting : Prop :=
  (∀ (p : List Byte) (n : Nat) (s : State), 1 ≤ n → n ≤ 8 → n ≤ p.length →
    (∀ x ∈ p.drop (p.length - n), x = BitVec.ofNat 8 n) →
    ∃ t, exec (.unpad p) s = .next t ∧ t.obuf = Memory.ofBytes (p.take (p.length - n)) ∧ t.st = s.st) ∧
  (∀ d : List Byte, ∃ n, 1 ≤ n ∧ n ≤ 8 ∧ n ≤ (padBytes d).length ∧
    ∀ x ∈ (padBytes d).drop ((padBytes d).length - n), x = BitVec.ofNat 8 n)

/-- 42_padding.md R110: `unpad(pad(data)) == data` for every `data`, under every PAD_CHECK, with no failure: from what
`pad` puts in `WBUF` in one state, `unpad` puts the data in `OBUF` in any other. -/
def Obligations.UnpadInvertsPad : Prop :=
  ∀ (d : List Byte) (s u : State), ∃ (p : List Byte) (t v : State),
    exec (.pad d) s = .next t ∧ t.wbuf = Memory.ofBytes p ∧
      exec (.unpad p) u = .next v ∧ v.obuf = Memory.ofBytes d ∧ v.st = u.st

/-- 42_padding.md R109, 43_ecb_mode.md R119, 93_implementation_defined.md U8: the unit-level calls the spec gives no
meaning are refused by name, under every PAD_CHECK. That the key is looked at before the data (the third clause, for
empty and misaligned data too) is the model's own order (log 19). -/
def Obligations.UndefinedUnitCallsAreRefused : Prop :=
  ∀ (key : List Byte) (s : State),
    exec (.unpad []) s = .refused .unpadOfEmpty ∧
    (key.length = 8 → exec (.ecbDecrypt [] key) s = .refused .unpadOfEmpty) ∧
    (key.length ≠ 8 → ∀ d : List Byte,
      exec (.ecbEncrypt d key) s = .refused .unitKeyLength ∧ exec (.ecbDecrypt d key) s = .refused .unitKeyLength)

/-- 42_padding.md R111, 70_reset_and_hazards.md R184: under any setting a sequence that happens to end in `01` loses one
byte, and one that ends in `0202` two, with no failure. -/
def Obligations.PaddingChecksAreNoIntegrity : Prop :=
  ∀ (d : List Byte) (s : State),
    (∃ t, exec (.unpad (d ++ [0x01#8])) s = .next t ∧ t.obuf = Memory.ofBytes d ∧ t.st = s.st) ∧
    (∃ t, exec (.unpad (d ++ [0x02#8, 0x02#8])) s = .next t ∧ t.obuf = Memory.ofBytes d ∧ t.st = s.st)

/-! ### Blocks -/

/-- 43_ecb_mode.md R120: the per-block step reads block `i` of its source and `KEYR`; it writes block `i` of its
destination, and the lane's `XR` and `YR`; nothing else. `src` holds the sequence `l`. -/
def Obligations.BlockStepWritesOneBlock : Prop :=
  ∀ (lane i : Nat) (src dst : Space) (s : State) (l : List Byte), s.space src = Memory.ofBytes l → 8 * i + 8 ≤ l.length →
    ∃ (x y : Word) (out : List Byte) (t : State),
      x = toWord ((l.drop (8 * i)).take 8) ∧ y = transform x s.keyr ∧ intToBytes y.toNat 8 = some out ∧
      blockStepOn lane src dst i s = .next t ∧
      t = ((s.setXR lane x).setYR lane y).setSpace dst (t.space dst) ∧
      (∀ j < 8, (t.space dst).readByte (8 * i + j) = out[j]?) ∧
      (∀ a, a < 8 * i ∨ 8 * i + 8 ≤ a → (t.space dst).readByte a = (s.space dst).readByte a)

/-- 43_ecb_mode.md R123, 20_memory.md R51, R52: any order of the block steps, on any lanes, gives the same destination
buffer as ascending order on one lane, byte for byte. -/
def Obligations.BlockOrderDoesNotMatter : Prop :=
  ∀ (src dst : Space) (s : State) (l : List Byte) (n : Nat) (order : List (Nat × Nat)), src ≠ dst →
    s.space src = Memory.ofBytes l → l.length = 8 * n → s.space dst = [] →
    (order.map Prod.snd).Perm (List.range n) →
    ∃ t u, runSchedule src dst order s = .next t ∧
      runSchedule src dst ((List.range n).map fun i => (0, i)) s = .next u ∧
      t.space dst = u.space dst ∧ t.space dst = Memory.ofBytes (ecbBytes s.keyr n l)

/-- 43_ecb_mode.md R116, R121, R122; 70_reset_and_hazards.md R188: `ecbEncrypt` with an 8-byte key. `OBUF` is the padded
data, block by block in order, each block through codec and transform; `NBLK = IDX =` the number of blocks. The operands
are stood in `DBUF` and `KBUF` first (log 6). Only the lanes' registers are left out of the equation for the next state;
with one lane they hold the last block. -/
def Obligations.EcbEncryptTransformsThePaddedBlocks : Prop :=
  ∀ (d key : List Byte) (s : State), key.length = 8 →
    ∃ (t : State) (out : List Byte), exec (.ecbEncrypt d key) s = .next t ∧
      out.length = 8 * (d.length / 8 + 1) ∧
      (∀ i < d.length / 8 + 1, intToBytes (transform (toWord (((padBytes d).drop (8 * i)).take 8)) (toWord key)).toNat 8
        = some ((out.drop (8 * i)).take 8)) ∧
      t = { s with
        dbuf := Memory.ofBytes d, dlen := d.length, kbuf := Memory.ofBytes key, klen := key.length
        keyr := toWord key, nr := BitVec.ofNat 8 (8 - d.length % 8), wbuf := Memory.ofBytes (padBytes d)
        obuf := Memory.ofBytes out, nblk := d.length / 8 + 1, idx := d.length / 8 + 1, ret := .bytes out
        xr := t.xr, yr := t.yr, lanes := t.lanes } ∧
      t.lanes.length = s.lanes.length ∧
      (s.params.nlanes = 1 → t.xr = toWord ((padBytes d).drop (8 * (d.length / 8))) ∧
        t.yr = transform t.xr (toWord key) ∧ t.lanes = s.lanes)

/-- 43_ecb_mode.md R117, R121: `ecbDecrypt` of a whole, positive number of blocks with an 8-byte key: `WBUF` is the
transformed blocks, `NBLK = IDX =` their number, and the end is `unpad`'s: `NR` the last byte, then the result in `OBUF`
or the failure in `ST`. The operands are stood in `DBUF` and `KBUF` first (log 6), a last byte of 0 under NONE is a free
choice (log 8), and that a failure leaves `OBUF` as it was is the model's choice (log 20). Only the lanes' registers are
left out of the equation for the next state; with one lane they hold the last block and its transform (R120, R121). -/
def Obligations.EcbDecryptTransformsThenUnpads : Prop :=
  ∀ (c key : List Byte) (s : State) (n : Nat), key.length = 8 → c.length = 8 * (n + 1) →
    ∃ (t : State) (w : List Byte), exec (.ecbDecrypt c key) s = .next t ∧
      w.length = c.length ∧
      (∀ i < n + 1, intToBytes (transform (toWord ((c.drop (8 * i)).take 8)) (toWord key)).toNat 8
        = some ((w.drop (8 * i)).take 8)) ∧
      t = { s with
        dbuf := Memory.ofBytes c, dlen := c.length, kbuf := Memory.ofBytes key, klen := key.length
        keyr := toWord key, nr := w.getLastD 0, wbuf := Memory.ofBytes w, nblk := n + 1, idx := n + 1
        draws := s.draws + 1, obuf := t.obuf, st := t.st, ret := t.ret, xr := t.xr, yr := t.yr, lanes := t.lanes } ∧
      t.lanes.length = s.lanes.length ∧
      (match unpadBytes s.params.padCheck (Config.unpadZeroKeepsAll s.draws) w (w.getLastD 0).toNat with
        | .ok d => t.obuf = Memory.ofBytes d ∧ t.ret = .bytes d ∧ t.st = s.st
        | .error e => t.obuf = s.obuf ∧ t.ret = .failed e ∧ t.st = e) ∧
      (s.params.nlanes = 1 → t.xr = toWord (c.drop (8 * n)) ∧ t.yr = transform t.xr (toWord key) ∧ t.lanes = s.lanes)

/-- 43_ecb_mode.md R118: a misaligned length fails with INVALID_ARGUMENT(DATA_LENGTH) and no block is processed: `ST` and
the returned failure are all that changes beside the operands' places (log 6). That `OBUF` is left as it was is the
model's choice (log 20). -/
def Obligations.EcbDecryptRejectsMisalignedLengths : Prop :=
  ∀ (c key : List Byte) (s : State), key.length = 8 → c.length % 8 ≠ 0 →
    exec (.ecbDecrypt c key) s = .next
      { s with
        dbuf := Memory.ofBytes c, dlen := c.length, kbuf := Memory.ofBytes key, klen := key.length
        st := { cls := .invalidArgument, cause := 0b0010#4 }
        ret := .failed { cls := .invalidArgument, cause := 0b0010#4 }, draws := s.draws + 1 }

/-- 43_ecb_mode.md R124: the byte-wise closed form of the ciphertext, and of the buffer `ecbDecrypt` hands to `unpad`. -/
def Obligations.EcbClosedForm : Prop :=
  (∀ (d key : List Byte) (s : State), key.length = 8 →
    ∃ t, exec (.ecbEncrypt d key) s = .next t ∧ t.obuf.size = (padBytes d).length ∧
      ∀ a < (padBytes d).length, t.obuf.readByte a = some ((padBytes d).getD a 0 ^^^ key.getD (a % 8) 0)) ∧
  (∀ (c key : List Byte) (s : State), key.length = 8 → c.length % 8 = 0 → c ≠ [] →
    ∃ t, exec (.ecbDecrypt c key) s = .next t ∧ t.wbuf.size = c.length ∧
      ∀ a < c.length, t.wbuf.readByte a = some (c.getD a 0 ^^^ key.getD (a % 8) 0))

/-- 43_ecb_mode.md R125 (a), (c), 41_block_transform.md R93 (f): equal plaintext blocks give equal ciphertext blocks, and
unequal ones unequal; a ciphertext that differs in block `i` and no other decrypts, before `unpad`, to a buffer that
differs in block `i` and no other. -/
def Obligations.EcbKeepsBlockPatterns : Prop :=
  (∀ (d key : List Byte) (s t : State) (i j : Nat), key.length = 8 → exec (.ecbEncrypt d key) s = .next t →
    i < d.length / 8 + 1 → j < d.length / 8 + 1 →
    (((t.obuf.bytes.drop (8 * i)).take 8 = (t.obuf.bytes.drop (8 * j)).take 8) ↔
      ((padBytes d).drop (8 * i)).take 8 = ((padBytes d).drop (8 * j)).take 8)) ∧
  (∀ (c e key : List Byte) (s t u : State) (i : Nat), key.length = 8 → c.length = e.length →
    exec (.ecbDecrypt c key) s = .next t → exec (.ecbDecrypt e key) s = .next u → c.length % 8 = 0 → c ≠ [] →
    (∀ j, j ≠ i → (c.drop (8 * j)).take 8 = (e.drop (8 * j)).take 8) →
    (∀ j, j ≠ i → (t.wbuf.bytes.drop (8 * j)).take 8 = (u.wbuf.bytes.drop (8 * j)).take 8) ∧
    ((c.drop (8 * i)).take 8 ≠ (e.drop (8 * i)).take 8 →
      (t.wbuf.bytes.drop (8 * i)).take 8 ≠ (u.wbuf.bytes.drop (8 * i)).take 8))

/-! ### Commands -/

/-- 44_commands.md R131: `encryptBlock`. Both lengths 8: the eight bytes of the transformed block. Otherwise
INVALID_ARGUMENT, KEY_LENGTH when the key is not 8 bytes, DATA_LENGTH when the data is not, both when both. -/
def Obligations.EncryptBlockAnswers : Prop :=
  ∀ (d key : List Byte) (s : State), s.ready (Cmd.of opEncryptBlock d key) →
    (key.length = 8 → d.length = 8 → ∃ out, intToBytes (transform (toWord d) (toWord key)).toNat 8 = some out ∧
      exec (.encryptBlock d key) s = .next (s.answerWith { cls := .ok, cause := 0b0000#4, olen := 8, out := out })) ∧
    (key.length ≠ 8 → d.length = 8 → exec (.encryptBlock d key) s =
      .next (s.answerWith { cls := .invalidArgument, cause := 0b0001#4, olen := 0, out := [] })) ∧
    (key.length = 8 → d.length ≠ 8 → exec (.encryptBlock d key) s =
      .next (s.answerWith { cls := .invalidArgument, cause := 0b0010#4, olen := 0, out := [] })) ∧
    (key.length ≠ 8 → d.length ≠ 8 → exec (.encryptBlock d key) s =
      .next (s.answerWith { cls := .invalidArgument, cause := 0b0011#4, olen := 0, out := [] }))

/-- 44_commands.md R132: `decryptBlock`, the symmetric contract; nothing is unpadded. -/
def Obligations.DecryptBlockAnswers : Prop :=
  ∀ (d key : List Byte) (s : State), s.ready (Cmd.of opDecryptBlock d key) →
    (key.length = 8 → d.length = 8 → ∃ out, intToBytes (transform (toWord d) (toWord key)).toNat 8 = some out ∧
      exec (.decryptBlock d key) s = .next (s.answerWith { cls := .ok, cause := 0b0000#4, olen := 8, out := out })) ∧
    (key.length ≠ 8 → d.length = 8 → exec (.decryptBlock d key) s =
      .next (s.answerWith { cls := .invalidArgument, cause := 0b0001#4, olen := 0, out := [] })) ∧
    (key.length = 8 → d.length ≠ 8 → exec (.decryptBlock d key) s =
      .next (s.answerWith { cls := .invalidArgument, cause := 0b0010#4, olen := 0, out := [] })) ∧
    (key.length ≠ 8 → d.length ≠ 8 → exec (.decryptBlock d key) s =
      .next (s.answerWith { cls := .invalidArgument, cause := 0b0011#4, olen := 0, out := [] }))

/-- 44_commands.md R133: `encryptBytes`. An 8-byte key: OK with what `ecbEncrypt` returns, for data of any length, and
`dlen + (8 - dlen mod 8)` bytes. Any other key: KEY_LENGTH. -/
def Obligations.EncryptBytesAnswers : Prop :=
  ∀ (d key : List Byte) (s : State), s.ready (Cmd.of opEncryptBytes d key) →
    (key.length = 8 → ∃ (t : State) (out : List Byte), exec (.ecbEncrypt d key) s = .next t ∧ t.ret = .bytes out ∧
      out.length = d.length + (8 - d.length % 8) ∧
      exec (.encryptBytes d key) s =
        .next (s.answerWith { cls := .ok, cause := 0b0000#4, olen := out.length, out := out })) ∧
    (key.length ≠ 8 → exec (.encryptBytes d key) s =
      .next (s.answerWith { cls := .invalidArgument, cause := 0b0001#4, olen := 0, out := [] }))

/-- 44_commands.md R134: `decryptBytes`. An 8-byte key and a positive multiple of 8 bytes: what `ecbDecrypt` returns,
OK with its bytes or its failure raised with no output. Otherwise the length flags. Under FULL the output is `dlen - 8`
to `dlen - 1` bytes; under NONE there is no PADDING_ERROR. -/
def Obligations.DecryptBytesAnswers : Prop :=
  ∀ (c key : List Byte) (s : State), s.ready (Cmd.of opDecryptBytes c key) →
    (key.length = 8 → c ≠ [] → c.length % 8 = 0 → ∃ t : State, exec (.ecbDecrypt c key) s = .next t ∧
      ((∃ d, t.ret = .bytes d ∧
          exec (.decryptBytes c key) s =
            .next (s.answerWith { cls := .ok, cause := 0b0000#4, olen := d.length, out := d }) ∧
          (s.params.padCheck = .full → c.length - 8 ≤ d.length ∧ d.length ≤ c.length - 1)) ∨
        (∃ cause, (cause = 0b0100#4 ∨ cause = 0b1000#4) ∧ t.ret = .failed { cls := .paddingError, cause := cause } ∧
          s.params.padCheck ≠ .unchecked ∧
          exec (.decryptBytes c key) s =
            .next (s.answerWith { cls := .paddingError, cause := cause, olen := 0, out := [] })))) ∧
    (key.length ≠ 8 → c ≠ [] → c.length % 8 = 0 → exec (.decryptBytes c key) s =
      .next (s.answerWith { cls := .invalidArgument, cause := 0b0001#4, olen := 0, out := [] })) ∧
    (key.length = 8 → c = [] ∨ c.length % 8 ≠ 0 → exec (.decryptBytes c key) s =
      .next (s.answerWith { cls := .invalidArgument, cause := 0b0010#4, olen := 0, out := [] })) ∧
    (key.length ≠ 8 → c = [] ∨ c.length % 8 ≠ 0 → exec (.decryptBytes c key) s =
      .next (s.answerWith { cls := .invalidArgument, cause := 0b0011#4, olen := 0, out := [] }))

/-- 44_commands.md R137, R130: for every command the core can run it produces exactly one response, a legal one, whatever
PAD_CHECK is; with RANGE or FULL the response is a function of the command, and with NONE too, unless the command is a
`decryptBytes` that passes its length checks and whose decrypted last byte is 0. Two steps suffice, acceptance and the
run, from an idle core (one step for a whole command is log 5). -/
def Obligations.EveryCommandAnswersExactlyOnce : Prop :=
  ∀ (i : Instr) (c : Cmd), encode i = some c →
    (∀ s : State, s.ready c → ∃ r : Response, legalResponse r ∧ exec i s = .next (s.answerWith r) ∧
      (s.answerWith r).responses = s.responses ++ [r]) ∧
    (∀ (s : State) (rest : List HostAction), s.phase = .idle → s.todo = .present c :: rest → decode s.params c = .ok i →
      rest.head? ≠ some .reset →
      ∃ (r : Response) (t : State), Sys2Proof.core.run 2 s = .next t ∧ t.phase = .idle ∧ t.todo = rest ∧
        t.responses = s.responses ++ [r]) ∧
    (∀ (s u : State) (r q : Response), s.ready c → u.ready c → s.params.padCheck = u.params.padCheck →
      (s.params.padCheck ≠ .unchecked ∨ ∀ d key, i = .decryptBytes d key → key.length = 8 → d.length % 8 = 0 → d ≠ [] →
        (d.getLastD 0 ^^^ key.getLastD 0) ≠ 0) →
      exec i s = .next (s.answerWith r) → exec i u = .next (u.answerWith q) → r = q)

/-- 10_state.md R32: the small-step description (registers, buffers, the IDX loop) gives the response of the big-step one
(each command a function from its fields to a response), for every command and every state that can run it. -/
def Obligations.SmallStepAgreesWithBigStep : Prop :=
  ∀ (i : Instr) (c : Cmd) (s : State), encode i = some c → s.ready c →
    ∃ r, answer s.params.padCheck (Config.unpadZeroKeepsAll s.draws) i = some r ∧ exec i s = .next (s.answerWith r)

/-- 44_commands.md R135: both round trips, OK at every step, under every PAD_CHECK, in any two states that can run the
two commands. -/
def Obligations.EncryptThenDecryptGivesTheDataBack : Prop :=
  (∀ (p key : List Byte) (s : State), p.length = 8 → key.length = 8 → s.ready (Cmd.of opEncryptBlock p key) →
    ∃ c : List Byte, s.Answers (.encryptBlock p key) { cls := .ok, cause := 0, olen := 8, out := c } ∧
      ∀ u : State, u.ready (Cmd.of opDecryptBlock c key) →
        u.Answers (.decryptBlock c key) { cls := .ok, cause := 0, olen := 8, out := p }) ∧
  (∀ (d key : List Byte) (s : State), key.length = 8 → s.ready (Cmd.of opEncryptBytes d key) →
    ∃ c : List Byte, s.Answers (.encryptBytes d key) { cls := .ok, cause := 0, olen := c.length, out := c } ∧
      ∀ u : State, u.ready (Cmd.of opDecryptBytes c key) →
        u.Answers (.decryptBytes c key) { cls := .ok, cause := 0, olen := d.length, out := d })

/-- 44_commands.md R136: the two block commands differ in `op[0]` only and are one function; encrypting a block twice gives
it back; the two byte-sequence commands are not one function and accept different lengths; `encryptBytes` twice gives the
padded data and one more block, the transformed pad block. The first clause equates the whole next states, the working
state that 10_state.md R31 leaves unspecified included: that part is the model's choice (log 4), the others speak of the
responses only. -/
def Obligations.BlockCommandsAreOneFunction : Prop :=
  (∀ (d key : List Byte) (s : State), s.phase = .idle →
    exec (.encryptBlock d key) s = exec (.decryptBlock d key) s ∧
    encode (.encryptBlock d key) = some (Cmd.of 0b00#2 d key) ∧
    encode (.decryptBlock d key) = some (Cmd.of 0b01#2 d key)) ∧
  (∀ (p key c : List Byte) (s u : State), s.phase = .idle → u.phase = .idle →
    s.Answers (.encryptBlock p key) { cls := .ok, cause := 0, olen := 8, out := c } →
    u.Answers (.encryptBlock c key) { cls := .ok, cause := 0, olen := 8, out := p }) ∧
  (∀ (d key : List Byte) (s : State), key.length = 8 → s.phase = .idle → d.length % 8 ≠ 0 →
    (∃ c : List Byte, s.Answers (.encryptBytes d key) { cls := .ok, cause := 0, olen := c.length, out := c }) ∧
    s.Answers (.decryptBytes d key) { cls := .invalidArgument, cause := 0b0010#4, olen := 0, out := [] }) ∧
  (∀ (d key : List Byte) (s u : State), key.length = 8 → s.phase = .idle → u.phase = .idle →
    ∃ c : List Byte, s.Answers (.encryptBytes d key) { cls := .ok, cause := 0, olen := c.length, out := c } ∧
      ∃ e : List Byte, e = padBytes d ++ key.map (fun k => 0x08#8 ^^^ k) ∧
        u.Answers (.encryptBytes c key) { cls := .ok, cause := 0, olen := e.length, out := e })

/-- 10_state.md R21, R30, 60_exceptions.md R159, 70_reset_and_hazards.md R177: nothing survives a command. The response
is a function of the command and the parameters, and the core it leaves is the same whatever command ran and from
whatever state, as after reset too: two cores with equal parameters and equal draws of the free values (log 4) agree on
everything but their hosts. -/
def Obligations.NothingSurvivesACommand : Prop :=
  (∀ (i j : Instr) (c e : Cmd) (s u t v : State), encode i = some c → encode j = some e →
    s.params = u.params → s.draws = u.draws → exec i s = .next t → exec j u = .next v →
    t.SameCore v ∧ t.draws = v.draws ∧ t.SameCore (resetLine s)) ∧
  (∀ (i : Instr) (c : Cmd) (s u : State), encode i = some c → s.ready c → u.ready c → s.params = u.params →
    s.draws = u.draws → ∃ r, exec i s = .next (s.answerWith r) ∧ exec i u = .next (u.answerWith r))

/-- 44_commands.md R130, 60_exceptions.md R157: a length violation is decided by the lengths alone. Two commands with the
same operation and the same lengths, one of which ends in INVALID_ARGUMENT, end alike, whatever their bytes: an
INVALID_ARGUMENT hides any padding problem. -/
def Obligations.LengthViolationsReadNoByte : Prop :=
  ∀ (i j : Instr) (c e : Cmd) (s : State) (r : Response), encode i = some c → encode j = some e →
    c.op = e.op → c.klen = e.klen → c.dlen = e.dlen → s.phase = .idle →
    exec i s = .next (s.answerWith r) → r.cls = .invalidArgument →
    exec j s = .next (s.answerWith r)

/-- 60_exceptions.md R155: which command can produce which response. The two length flags are set exactly by the wrong
lengths; PAD_RANGE needs RANGE or FULL, PAD_MISMATCH needs FULL, and both need `decryptBytes`. -/
def Obligations.ResponsesEachCommandCanProduce : Prop :=
  ∀ (i : Instr) (c : Cmd) (s : State) (r : Response), encode i = some c → s.ready c →
    exec i s = .next (s.answerWith r) →
    (r.cause.getLsbD 0 = true ↔ c.klen ≠ 8) ∧
    (r.cause.getLsbD 1 = true ↔
      (c.op.getLsbD 1 = false ∧ c.dlen ≠ 8) ∨ (c.op = 0b11#2 ∧ (c.dlen = 0 ∨ c.dlen % 8 ≠ 0))) ∧
    (r.cause.getLsbD 2 = true → c.op = 0b11#2 ∧ s.params.padCheck ≠ .unchecked) ∧
    (r.cause.getLsbD 3 = true → c.op = 0b11#2 ∧ s.params.padCheck = .full)

/-- 60_exceptions.md R158: `raise` writes class and cause into the response, discards the output, goes to IDLE, and saves
nothing: the next state is that of any response. -/
def Obligations.RaiseEndsTheCommandWithNoOutput : Prop :=
  ∀ (st : Status) (s : State),
    raise st s = s.answerWith { cls := st.cls, cause := st.cause, olen := 0, out := [] } ∧
    (raise st s).phase = .idle ∧ (raise st s).params = s.params ∧ (raise st s).todo = s.todo

/-- 44_commands.md R131, 10_state.md R25: the registers of a block command when its response is produced: `KEYR`, `XR`,
`YR` and `OBUF`; `IDX`, `NBLK`, `NR`, `WBUF` and the rest are not used. That with more than one lane the registers are
lane 0's and the other lanes are left alone is the model's choice (log 11). -/
def Obligations.BlockDatapathWritesItsRegisters : Prop :=
  ∀ (d key : List Byte) (s : State), s.kbuf = Memory.ofBytes key → s.dbuf = Memory.ofBytes d → key.length = 8 →
    d.length = 8 → ∃ out, intToBytes (toWord d ^^^ toWord key).toNat 8 = some out ∧
      blockDatapath s = .next
        { s with keyr := toWord key, xr := toWord d, yr := toWord d ^^^ toWord key, obuf := Memory.ofBytes out }

/-- 43_ecb_mode.md R126: lengths of ciphertext and plaintext, and the unit-level round trip under every PAD_CHECK. -/
def Obligations.EcbLengthsAndRoundTrip : Prop :=
  (∀ (d key : List Byte) (s u : State), key.length = 8 →
    ∃ (t v : State) (c : List Byte), exec (.ecbEncrypt d key) s = .next t ∧ t.ret = .bytes c ∧
      c.length = d.length + (8 - d.length % 8) ∧ c.length % 8 = 0 ∧ 8 ≤ c.length ∧
      exec (.ecbDecrypt c key) u = .next v ∧ v.ret = .bytes d) ∧
  (∀ (c key d : List Byte) (s t : State), key.length = 8 → exec (.ecbDecrypt c key) s = .next t → t.ret = .bytes d →
    s.params.padCheck = .full →
    d.length = c.length - t.nr.toNat ∧ c.length - 8 ≤ d.length ∧ d.length ≤ c.length - 1)

/-- 70_reset_and_hazards.md R182: one plaintext block and its ciphertext block reveal the key; every message whose length
is a multiple of 8 ends in the ciphertext block `0808080808080808 xor key`, the empty message encrypts to exactly that
block, and so the key is read from such a ciphertext with no known plaintext. -/
def Obligations.CiphertextRevealsTheKey : Prop :=
  (∀ (p key : List Byte) (s : State), p.length = 8 → key.length = 8 → s.ready (Cmd.of opEncryptBlock p key) →
    ∃ c : List Byte, s.Answers (.encryptBlock p key) { cls := .ok, cause := 0, olen := 8, out := c } ∧
      key = List.zipWith (· ^^^ ·) p c) ∧
  (∀ (d key : List Byte) (s : State), d.length % 8 = 0 → key.length = 8 → s.ready (Cmd.of opEncryptBytes d key) →
    ∃ c : List Byte, s.Answers (.encryptBytes d key) { cls := .ok, cause := 0, olen := c.length, out := c } ∧
      c.drop d.length = key.map (fun k => 0x08#8 ^^^ k) ∧ (d = [] → c = key.map (fun k => 0x08#8 ^^^ k)) ∧
      key = (c.drop d.length).map fun b => 0x08#8 ^^^ b)

/-! ### The machine as a whole -/

/-- 10_state.md R27: no command, no unit-level function and no step changes a static parameter. -/
def Obligations.ParametersNeverChange : Prop :=
  (∀ (i : Instr) (s t : State), exec i s = .next t → t.params = s.params) ∧
  (∀ s t : State, step s = .next t → t.params = s.params)

/-- The frame of the seven unit-level functions: the phase, the latched operation code, the host and the parameters are
unchanged, and `KEYR` too but for `transform` and the two mode-driver functions (30_encoding.md R68, 10_state.md R24). -/
def Obligations.UnitCallsLeaveTheHostAlone : Prop :=
  ∀ (i : Instr) (s t : State), encode i = none → exec i s = .next t →
    t.phase = s.phase ∧ t.op = s.op ∧ t.todo = s.todo ∧ t.responses = s.responses ∧ t.params = s.params ∧
    ((∀ x k, i ≠ .transform x k) → (∀ d k, i ≠ .ecbEncrypt d k) → (∀ d k, i ≠ .ecbDecrypt d k) →
      t.keyr = s.keyr ∧ t.xr = s.xr ∧ t.yr = s.yr ∧ t.lanes = s.lanes ∧ t.idx = s.idx ∧ t.nblk = s.nblk ∧
      t.kbuf = s.kbuf ∧ t.klen = s.klen)

/-- 20_memory.md R45: `MemWrite` inside or at the end of a space makes the written bytes read back, leaves every other
byte of every space unchanged, and extends the space by what lies beyond its end. -/
def Obligations.MemWriteWritesItsBytesOnly : Prop :=
  ∀ (s : State) (S : Space) (l v : List Byte) (a : Nat), s.space S = Memory.ofBytes l → a ≤ l.length →
    (∀ k < v.length, ((memWrite S a v s).space S).readByte (a + k) = v[k]?) ∧
    (∀ b, b < a ∨ a + v.length ≤ b → ((memWrite S a v s).space S).readByte b = (s.space S).readByte b) ∧
    (∀ T, T ≠ S → (memWrite S a v s).space T = s.space T) ∧
    ((memWrite S a v s).space S).size = max l.length (a + v.length) ∧
    memWrite S a v s = s.setSpace S ((memWrite S a v s).space S)

/-- 20_memory.md R44, R40: `MemRead` gives the bytes of the sequence in address order; where an address lies at or beyond
the end it faults, naming the first such address. -/
def Obligations.MemReadGivesTheBytesInOrder : Prop :=
  ∀ (s : State) (S : Space) (l : List Byte) (a n : Nat), s.space S = Memory.ofBytes l →
    (a + n ≤ l.length → memRead S a n s = .next ((l.drop a).take n)) ∧
    (l.length < a + n → 0 < n → memRead S a n s = .fault (.addressBeyondSpace S (max a l.length)))

/-- Every step keeps the invariant `State.Inv` (Safety): canonical byte spaces without gaps, one register pair per lane, a
formed command in the latch while BUSY, only legal responses (60_exceptions.md R150). -/
def Obligations.EveryStepKeepsTheInvariant : Prop :=
  ∀ s t : State, s.Inv → step s = .next t → t.Inv

/-- The reset state meets the invariant. -/
def Obligations.ResetMeetsTheInvariant : Prop := State.reset.Inv

/-- 70_reset_and_hazards.md R189, 40_codec.md R83, 20_memory.md R40: from a state that meets the invariant no step faults,
and the only refusal is of a presented tuple that is no command. -/
def Obligations.NoStepFaults : Prop :=
  ∀ s : State, s.Inv →
    (∃ t, step s = .next t) ∨
    (∃ c rest e, s.phase = .idle ∧ s.todo = .present c :: rest ∧ decode s.params c = .error e ∧
      step s = .refused (.notACommand e))
end

