-- ==== Sys2Proof/Laws/State.lean ====
section
/-! SUPPORT. One lemma per field and update of State, so that no later proof unfolds a record update. -/

namespace Sys2Proof.Machine


/-! ### accept: the latch, the status and the phase; nothing else -/

@[simp] theorem accept_params (s : State) (c : Cmd) : (s.accept c).params = s.params := rfl
@[simp] theorem accept_phase (s : State) (c : Cmd) : (s.accept c).phase = .busy := rfl
@[simp] theorem accept_op (s : State) (c : Cmd) : (s.accept c).op = c.op := rfl
@[simp] theorem accept_klen (s : State) (c : Cmd) : (s.accept c).klen = c.klen := rfl
@[simp] theorem accept_dlen (s : State) (c : Cmd) : (s.accept c).dlen = c.dlen := rfl
@[simp] theorem accept_kbuf (s : State) (c : Cmd) : (s.accept c).kbuf = Memory.ofBytes c.key := rfl
@[simp] theorem accept_dbuf (s : State) (c : Cmd) : (s.accept c).dbuf = Memory.ofBytes c.data := rfl
@[simp] theorem accept_wbuf (s : State) (c : Cmd) : (s.accept c).wbuf = s.wbuf := rfl
@[simp] theorem accept_obuf (s : State) (c : Cmd) : (s.accept c).obuf = s.obuf := rfl
@[simp] theorem accept_keyr (s : State) (c : Cmd) : (s.accept c).keyr = s.keyr := rfl
@[simp] theorem accept_xr (s : State) (c : Cmd) : (s.accept c).xr = s.xr := rfl
@[simp] theorem accept_yr (s : State) (c : Cmd) : (s.accept c).yr = s.yr := rfl
@[simp] theorem accept_lanes (s : State) (c : Cmd) : (s.accept c).lanes = s.lanes := rfl
@[simp] theorem accept_nr (s : State) (c : Cmd) : (s.accept c).nr = s.nr := rfl
@[simp] theorem accept_idx (s : State) (c : Cmd) : (s.accept c).idx = s.idx := rfl
@[simp] theorem accept_nblk (s : State) (c : Cmd) : (s.accept c).nblk = s.nblk := rfl
@[simp] theorem accept_st (s : State) (c : Cmd) : (s.accept c).st = statusOk := rfl
@[simp] theorem accept_ret (s : State) (c : Cmd) : (s.accept c).ret = s.ret := rfl
@[simp] theorem accept_todo (s : State) (c : Cmd) : (s.accept c).todo = s.todo := rfl
@[simp] theorem accept_responses (s : State) (c : Cmd) : (s.accept c).responses = s.responses := rfl
@[simp] theorem accept_draws (s : State) (c : Cmd) : (s.accept c).draws = s.draws := rfl

/-! ### answerWith: the response to the host, IDLE, and every working value free -/

@[simp] theorem answerWith_params (s : State) (r : Response) : (s.answerWith r).params = s.params := rfl
@[simp] theorem answerWith_phase (s : State) (r : Response) : (s.answerWith r).phase = .idle := rfl
@[simp] theorem answerWith_op (s : State) (r : Response) : (s.answerWith r).op = (Config.unspecified s.draws).op := rfl
@[simp] theorem answerWith_klen (s : State) (r : Response) : (s.answerWith r).klen = (Config.unspecified s.draws).klen := rfl
@[simp] theorem answerWith_dlen (s : State) (r : Response) : (s.answerWith r).dlen = (Config.unspecified s.draws).dlen := rfl
@[simp] theorem answerWith_kbuf (s : State) (r : Response) : (s.answerWith r).kbuf = Memory.ofBytes (Config.unspecified s.draws).kbuf := rfl
@[simp] theorem answerWith_dbuf (s : State) (r : Response) : (s.answerWith r).dbuf = Memory.ofBytes (Config.unspecified s.draws).dbuf := rfl
@[simp] theorem answerWith_wbuf (s : State) (r : Response) : (s.answerWith r).wbuf = Memory.ofBytes (Config.unspecified s.draws).wbuf := rfl
@[simp] theorem answerWith_obuf (s : State) (r : Response) : (s.answerWith r).obuf = Memory.ofBytes (Config.unspecified s.draws).obuf := rfl
@[simp] theorem answerWith_keyr (s : State) (r : Response) : (s.answerWith r).keyr = (Config.unspecified s.draws).keyr := rfl
@[simp] theorem answerWith_xr (s : State) (r : Response) : (s.answerWith r).xr = (Config.unspecified s.draws).lane0.xr := rfl
@[simp] theorem answerWith_yr (s : State) (r : Response) : (s.answerWith r).yr = (Config.unspecified s.draws).lane0.yr := rfl
@[simp] theorem answerWith_lanes (s : State) (r : Response) : (s.answerWith r).lanes = (List.range (s.params.nlanes - 1)).map (Config.unspecifiedLane s.draws) := rfl
@[simp] theorem answerWith_nr (s : State) (r : Response) : (s.answerWith r).nr = (Config.unspecified s.draws).nr := rfl
@[simp] theorem answerWith_idx (s : State) (r : Response) : (s.answerWith r).idx = (Config.unspecified s.draws).idx := rfl
@[simp] theorem answerWith_nblk (s : State) (r : Response) : (s.answerWith r).nblk = (Config.unspecified s.draws).nblk := rfl
@[simp] theorem answerWith_st (s : State) (r : Response) : (s.answerWith r).st = (Config.unspecified s.draws).st := rfl
@[simp] theorem answerWith_ret (s : State) (r : Response) : (s.answerWith r).ret = .nothing := rfl
@[simp] theorem answerWith_todo (s : State) (r : Response) : (s.answerWith r).todo = s.todo := rfl
@[simp] theorem answerWith_responses (s : State) (r : Response) : (s.answerWith r).responses = s.responses ++ [r] := rfl
@[simp] theorem answerWith_draws (s : State) (r : Response) : (s.answerWith r).draws = s.draws + 1 := rfl

/-! ### resetLine: IDLE, and every working value free; no response -/

@[simp] theorem resetLine_params (s : State) : (resetLine s).params = s.params := rfl
@[simp] theorem resetLine_phase (s : State) : (resetLine s).phase = .idle := rfl
@[simp] theorem resetLine_op (s : State) : (resetLine s).op = (Config.unspecified s.draws).op := rfl
@[simp] theorem resetLine_klen (s : State) : (resetLine s).klen = (Config.unspecified s.draws).klen := rfl
@[simp] theorem resetLine_dlen (s : State) : (resetLine s).dlen = (Config.unspecified s.draws).dlen := rfl
@[simp] theorem resetLine_kbuf (s : State) : (resetLine s).kbuf = Memory.ofBytes (Config.unspecified s.draws).kbuf := rfl
@[simp] theorem resetLine_dbuf (s : State) : (resetLine s).dbuf = Memory.ofBytes (Config.unspecified s.draws).dbuf := rfl
@[simp] theorem resetLine_wbuf (s : State) : (resetLine s).wbuf = Memory.ofBytes (Config.unspecified s.draws).wbuf := rfl
@[simp] theorem resetLine_obuf (s : State) : (resetLine s).obuf = Memory.ofBytes (Config.unspecified s.draws).obuf := rfl
@[simp] theorem resetLine_keyr (s : State) : (resetLine s).keyr = (Config.unspecified s.draws).keyr := rfl
@[simp] theorem resetLine_xr (s : State) : (resetLine s).xr = (Config.unspecified s.draws).lane0.xr := rfl
@[simp] theorem resetLine_yr (s : State) : (resetLine s).yr = (Config.unspecified s.draws).lane0.yr := rfl
@[simp] theorem resetLine_lanes (s : State) : (resetLine s).lanes = (List.range (s.params.nlanes - 1)).map (Config.unspecifiedLane s.draws) := rfl
@[simp] theorem resetLine_nr (s : State) : (resetLine s).nr = (Config.unspecified s.draws).nr := rfl
@[simp] theorem resetLine_idx (s : State) : (resetLine s).idx = (Config.unspecified s.draws).idx := rfl
@[simp] theorem resetLine_nblk (s : State) : (resetLine s).nblk = (Config.unspecified s.draws).nblk := rfl
@[simp] theorem resetLine_st (s : State) : (resetLine s).st = (Config.unspecified s.draws).st := rfl
@[simp] theorem resetLine_ret (s : State) : (resetLine s).ret = .nothing := rfl
@[simp] theorem resetLine_todo (s : State) : (resetLine s).todo = s.todo := rfl
@[simp] theorem resetLine_responses (s : State) : (resetLine s).responses = s.responses := rfl
@[simp] theorem resetLine_draws (s : State) : (resetLine s).draws = s.draws + 1 := rfl

/-! ### setSpace: one byte space -/

@[simp] theorem space_kbuf (s : State) : s.space .kbuf = s.kbuf := rfl
@[simp] theorem setSpace_kbuf (s : State) (m : Memory) : s.setSpace .kbuf m = { s with kbuf := m } := rfl
@[simp] theorem space_dbuf (s : State) : s.space .dbuf = s.dbuf := rfl
@[simp] theorem setSpace_dbuf (s : State) (m : Memory) : s.setSpace .dbuf m = { s with dbuf := m } := rfl
@[simp] theorem space_wbuf (s : State) : s.space .wbuf = s.wbuf := rfl
@[simp] theorem setSpace_wbuf (s : State) (m : Memory) : s.setSpace .wbuf m = { s with wbuf := m } := rfl
@[simp] theorem space_obuf (s : State) : s.space .obuf = s.obuf := rfl
@[simp] theorem setSpace_obuf (s : State) (m : Memory) : s.setSpace .obuf m = { s with obuf := m } := rfl
@[simp] theorem setSpace_params (s : State) (S : Space) (m : Memory) : (s.setSpace S m).params = s.params := by cases S <;> rfl
@[simp] theorem setSpace_phase (s : State) (S : Space) (m : Memory) : (s.setSpace S m).phase = s.phase := by cases S <;> rfl
@[simp] theorem setSpace_op (s : State) (S : Space) (m : Memory) : (s.setSpace S m).op = s.op := by cases S <;> rfl
@[simp] theorem setSpace_klen (s : State) (S : Space) (m : Memory) : (s.setSpace S m).klen = s.klen := by cases S <;> rfl
@[simp] theorem setSpace_dlen (s : State) (S : Space) (m : Memory) : (s.setSpace S m).dlen = s.dlen := by cases S <;> rfl
@[simp] theorem setSpace_keyr (s : State) (S : Space) (m : Memory) : (s.setSpace S m).keyr = s.keyr := by cases S <;> rfl
@[simp] theorem setSpace_xr (s : State) (S : Space) (m : Memory) : (s.setSpace S m).xr = s.xr := by cases S <;> rfl
@[simp] theorem setSpace_yr (s : State) (S : Space) (m : Memory) : (s.setSpace S m).yr = s.yr := by cases S <;> rfl
@[simp] theorem setSpace_lanes (s : State) (S : Space) (m : Memory) : (s.setSpace S m).lanes = s.lanes := by cases S <;> rfl
@[simp] theorem setSpace_nr (s : State) (S : Space) (m : Memory) : (s.setSpace S m).nr = s.nr := by cases S <;> rfl
@[simp] theorem setSpace_idx (s : State) (S : Space) (m : Memory) : (s.setSpace S m).idx = s.idx := by cases S <;> rfl
@[simp] theorem setSpace_nblk (s : State) (S : Space) (m : Memory) : (s.setSpace S m).nblk = s.nblk := by cases S <;> rfl
@[simp] theorem setSpace_st (s : State) (S : Space) (m : Memory) : (s.setSpace S m).st = s.st := by cases S <;> rfl
@[simp] theorem setSpace_ret (s : State) (S : Space) (m : Memory) : (s.setSpace S m).ret = s.ret := by cases S <;> rfl
@[simp] theorem setSpace_todo (s : State) (S : Space) (m : Memory) : (s.setSpace S m).todo = s.todo := by cases S <;> rfl
@[simp] theorem setSpace_responses (s : State) (S : Space) (m : Memory) : (s.setSpace S m).responses = s.responses := by cases S <;> rfl
@[simp] theorem setSpace_draws (s : State) (S : Space) (m : Memory) : (s.setSpace S m).draws = s.draws := by cases S <;> rfl

/-! ### setXR: one register of one lane -/

@[simp] theorem setXR_params (s : State) (l : Nat) (w : Word) : (s.setXR l w).params = s.params := by cases l <;> rfl
@[simp] theorem setXR_phase (s : State) (l : Nat) (w : Word) : (s.setXR l w).phase = s.phase := by cases l <;> rfl
@[simp] theorem setXR_op (s : State) (l : Nat) (w : Word) : (s.setXR l w).op = s.op := by cases l <;> rfl
@[simp] theorem setXR_klen (s : State) (l : Nat) (w : Word) : (s.setXR l w).klen = s.klen := by cases l <;> rfl
@[simp] theorem setXR_dlen (s : State) (l : Nat) (w : Word) : (s.setXR l w).dlen = s.dlen := by cases l <;> rfl
@[simp] theorem setXR_kbuf (s : State) (l : Nat) (w : Word) : (s.setXR l w).kbuf = s.kbuf := by cases l <;> rfl
@[simp] theorem setXR_dbuf (s : State) (l : Nat) (w : Word) : (s.setXR l w).dbuf = s.dbuf := by cases l <;> rfl
@[simp] theorem setXR_wbuf (s : State) (l : Nat) (w : Word) : (s.setXR l w).wbuf = s.wbuf := by cases l <;> rfl
@[simp] theorem setXR_obuf (s : State) (l : Nat) (w : Word) : (s.setXR l w).obuf = s.obuf := by cases l <;> rfl
@[simp] theorem setXR_keyr (s : State) (l : Nat) (w : Word) : (s.setXR l w).keyr = s.keyr := by cases l <;> rfl
@[simp] theorem setXR_yr (s : State) (l : Nat) (w : Word) : (s.setXR l w).yr = s.yr := by cases l <;> rfl
@[simp] theorem setXR_nr (s : State) (l : Nat) (w : Word) : (s.setXR l w).nr = s.nr := by cases l <;> rfl
@[simp] theorem setXR_idx (s : State) (l : Nat) (w : Word) : (s.setXR l w).idx = s.idx := by cases l <;> rfl
@[simp] theorem setXR_nblk (s : State) (l : Nat) (w : Word) : (s.setXR l w).nblk = s.nblk := by cases l <;> rfl
@[simp] theorem setXR_st (s : State) (l : Nat) (w : Word) : (s.setXR l w).st = s.st := by cases l <;> rfl
@[simp] theorem setXR_ret (s : State) (l : Nat) (w : Word) : (s.setXR l w).ret = s.ret := by cases l <;> rfl
@[simp] theorem setXR_todo (s : State) (l : Nat) (w : Word) : (s.setXR l w).todo = s.todo := by cases l <;> rfl
@[simp] theorem setXR_responses (s : State) (l : Nat) (w : Word) : (s.setXR l w).responses = s.responses := by cases l <;> rfl
@[simp] theorem setXR_draws (s : State) (l : Nat) (w : Word) : (s.setXR l w).draws = s.draws := by cases l <;> rfl
@[simp] theorem setXR_lanes_length (s : State) (l : Nat) (w : Word) : (s.setXR l w).lanes.length = s.lanes.length := by cases l <;> simp [State.setXR]
@[simp] theorem setXR_space (s : State) (l : Nat) (w : Word) (S : Space) : (s.setXR l w).space S = s.space S := by cases S <;> simp [State.space]

/-! ### setYR: one register of one lane -/

@[simp] theorem setYR_params (s : State) (l : Nat) (w : Word) : (s.setYR l w).params = s.params := by cases l <;> rfl
@[simp] theorem setYR_phase (s : State) (l : Nat) (w : Word) : (s.setYR l w).phase = s.phase := by cases l <;> rfl
@[simp] theorem setYR_op (s : State) (l : Nat) (w : Word) : (s.setYR l w).op = s.op := by cases l <;> rfl
@[simp] theorem setYR_klen (s : State) (l : Nat) (w : Word) : (s.setYR l w).klen = s.klen := by cases l <;> rfl
@[simp] theorem setYR_dlen (s : State) (l : Nat) (w : Word) : (s.setYR l w).dlen = s.dlen := by cases l <;> rfl
@[simp] theorem setYR_kbuf (s : State) (l : Nat) (w : Word) : (s.setYR l w).kbuf = s.kbuf := by cases l <;> rfl
@[simp] theorem setYR_dbuf (s : State) (l : Nat) (w : Word) : (s.setYR l w).dbuf = s.dbuf := by cases l <;> rfl
@[simp] theorem setYR_wbuf (s : State) (l : Nat) (w : Word) : (s.setYR l w).wbuf = s.wbuf := by cases l <;> rfl
@[simp] theorem setYR_obuf (s : State) (l : Nat) (w : Word) : (s.setYR l w).obuf = s.obuf := by cases l <;> rfl
@[simp] theorem setYR_keyr (s : State) (l : Nat) (w : Word) : (s.setYR l w).keyr = s.keyr := by cases l <;> rfl
@[simp] theorem setYR_xr (s : State) (l : Nat) (w : Word) : (s.setYR l w).xr = s.xr := by cases l <;> rfl
@[simp] theorem setYR_nr (s : State) (l : Nat) (w : Word) : (s.setYR l w).nr = s.nr := by cases l <;> rfl
@[simp] theorem setYR_idx (s : State) (l : Nat) (w : Word) : (s.setYR l w).idx = s.idx := by cases l <;> rfl
@[simp] theorem setYR_nblk (s : State) (l : Nat) (w : Word) : (s.setYR l w).nblk = s.nblk := by cases l <;> rfl
@[simp] theorem setYR_st (s : State) (l : Nat) (w : Word) : (s.setYR l w).st = s.st := by cases l <;> rfl
@[simp] theorem setYR_ret (s : State) (l : Nat) (w : Word) : (s.setYR l w).ret = s.ret := by cases l <;> rfl
@[simp] theorem setYR_todo (s : State) (l : Nat) (w : Word) : (s.setYR l w).todo = s.todo := by cases l <;> rfl
@[simp] theorem setYR_responses (s : State) (l : Nat) (w : Word) : (s.setYR l w).responses = s.responses := by cases l <;> rfl
@[simp] theorem setYR_draws (s : State) (l : Nat) (w : Word) : (s.setYR l w).draws = s.draws := by cases l <;> rfl
@[simp] theorem setYR_lanes_length (s : State) (l : Nat) (w : Word) : (s.setYR l w).lanes.length = s.lanes.length := by cases l <;> simp [State.setYR]
@[simp] theorem setYR_space (s : State) (l : Nat) (w : Word) (S : Space) : (s.setYR l w).space S = s.space S := by cases S <;> simp [State.space]

/-- Reading a space back after replacing it. -/
@[simp] theorem space_setSpace_same (s : State) (S : Space) (m : Memory) : (s.setSpace S m).space S = m := by
  cases S <;> rfl

/-- The other spaces are unchanged when one is replaced. -/
theorem space_setSpace_other (s : State) {S T : Space} (m : Memory) (h : T ≠ S) :
    (s.setSpace S m).space T = s.space T := by
  cases S <;> cases T <;> first | rfl | exact absurd rfl h

/-- Everything a response leaves in the state depends on the parameters, the host agent and the free-value counter
alone: nothing of the command is retained (10_state.md R21). -/
theorem answerWith_eq_of_same {s t : State} (r : Response) (hp : s.params = t.params) (ht : s.todo = t.todo)
    (hr : s.responses = t.responses) (hd : s.draws = t.draws) : s.answerWith r = t.answerWith r := by
  simp only [State.answerWith, State.release, hp, ht, hr, hd]

end Sys2Proof.Machine
end

