-- ==== Sys2Proof/Laws/Memory.lean ====
section
/-! SUPPORT. Byte spaces: reading after writing, the canonical form, and what the access primitives do on a space that
is a plain byte sequence (20_memory.md R40, R44, R45). -/

namespace Sys2Proof.Machine

open Host (Outcome)

@[simp] theorem andThen_next {α β : Type} (a : α) (f : α → Outcome β Fault Refusal) : andThen (.next a) f = f a := rfl

@[simp] theorem andThen_fault {α β : Type} (r : Fault) (f : α → Outcome β Fault Refusal) :
    andThen (.fault r) f = .fault r := rfl

@[simp] theorem andThen_refused {α β : Type} (r : Refusal) (f : α → Outcome β Fault Refusal) :
    andThen (.refused r) f = .refused r := rfl

/-- A sequence answers a next state only through a next state of its first part. -/
theorem andThen_eq_next {α β : Type} {o : Outcome α Fault Refusal} {f : α → Outcome β Fault Refusal} {b : β}
    (h : andThen o f = .next b) : ∃ a, o = .next a ∧ f a = .next b := by
  cases o with
  | next a => exact ⟨a, rfl, h⟩
  | fault r => cases h
  | refused r => cases h

/-! ### Canonical form -/

theorem wf_tail {x : Host.Cell} {m : Memory} (h : Memory.wf (x :: m) = true) : Memory.wf m = true := by
  cases m with
  | nil => rfl
  | cons y m => obtain ⟨a, v⟩ := x; obtain ⟨b, w⟩ := y; simp_all [Memory.wf]

/-- Every address after the first of a canonical space lies above it. -/
theorem wf_head_lt {a : Nat} {v : Byte} {m : Memory} (h : Memory.wf ((a, v) :: m) = true) :
    ∀ x ∈ m, a < x.1 := by
  induction m generalizing a v with
  | nil => simp
  | cons y m ih =>
    obtain ⟨b, w⟩ := y
    simp only [Memory.wf, Bool.and_eq_true, decide_eq_true_eq] at h
    intro x hx
    rcases List.mem_cons.1 hx with rfl | hx
    · exact h.1
    · exact lt_trans h.1 (ih h.2 x hx)

theorem wf_cons_iff {a : Nat} {v : Byte} {m : Memory} :
    Memory.wf ((a, v) :: m) = true ↔ (∀ x ∈ m, a < x.1) ∧ Memory.wf m = true := by
  refine ⟨fun h => ⟨wf_head_lt h, wf_tail h⟩, fun ⟨h, hm⟩ => ?_⟩
  cases m with
  | nil => rfl
  | cons y m => obtain ⟨b, w⟩ := y; simp [Memory.wf, hm, h (b, w) (by simp)]

theorem mem_writeByte {m : Memory} {a : Nat} {v : Byte} {x : Host.Cell} (h : x ∈ m.writeByte a v) :
    x = (a, v) ∨ x ∈ m := by
  induction m with
  | nil => simpa [Memory.writeByte] using h
  | cons y m ih =>
    obtain ⟨b, w⟩ := y
    simp only [Memory.writeByte] at h
    split at h
    · simpa using h
    · split at h
      · rcases List.mem_cons.1 h with h | h <;> simp [h]
      · rcases List.mem_cons.1 h with h | h
        · simp [h]
        · rcases ih h with h | h <;> simp [h]

/-- Writing a byte keeps the canonical form. -/
theorem writeByte_wf {m : Memory} (a : Nat) (v : Byte) (h : m.wf = true) : (m.writeByte a v).wf = true := by
  induction m with
  | nil => rfl
  | cons y m ih =>
    obtain ⟨b, w⟩ := y
    obtain ⟨hb, hm⟩ := wf_cons_iff.1 h
    simp only [Memory.writeByte]
    split
    · rename_i hab
      refine wf_cons_iff.2 ⟨fun x hx => ?_, h⟩
      rcases List.mem_cons.1 hx with rfl | hx
      · exact hab
      · exact lt_trans hab (hb x hx)
    · split
      · rename_i _ hab
        subst hab
        exact wf_cons_iff.2 ⟨hb, hm⟩
      · rename_i h1 h2
        refine wf_cons_iff.2 ⟨fun x hx => ?_, ih hm⟩
        rcases mem_writeByte hx with rfl | hx
        · simp only; omega
        · exact hb x hx

/-- Writing a byte sequence keeps the canonical form. -/
theorem writeBytes_wf {m : Memory} (a : Nat) (l : List Byte) (h : m.wf = true) : (m.writeBytes a l).wf = true := by
  induction l generalizing m a with
  | nil => exact h
  | cons v l ih => exact ih _ (writeByte_wf a v h)

theorem cellsFrom_lower (a : Nat) (l : List Byte) : ∀ x ∈ Memory.cellsFrom a l, a ≤ x.1 := by
  induction l generalizing a with
  | nil => simp [Memory.cellsFrom]
  | cons v l ih =>
    intro x hx
    rcases List.mem_cons.1 hx with rfl | hx
    · exact le_refl _
    · exact le_trans (Nat.le_succ a) (ih (a + 1) x hx)

theorem cellsFrom_wf (a : Nat) (l : List Byte) : (Memory.cellsFrom a l).wf = true := by
  induction l generalizing a with
  | nil => rfl
  | cons v l ih => exact wf_cons_iff.2 ⟨fun x hx => cellsFrom_lower (a + 1) l x hx, ih (a + 1)⟩

/-- The space of a byte sequence is canonical. -/
@[simp] theorem ofBytes_wf (l : List Byte) : (Memory.ofBytes l).wf = true := cellsFrom_wf 0 l

/-! ### Reading after writing -/

/-- The byte just written reads back. -/
@[simp] theorem readByte_writeByte_same (m : Memory) (a : Nat) (v : Byte) : (m.writeByte a v).readByte a = some v := by
  induction m with
  | nil => simp [Memory.writeByte, Memory.readByte]
  | cons y m ih =>
    obtain ⟨b, w⟩ := y
    simp only [Memory.writeByte]
    split
    · simp [Memory.readByte]
    · split
      · simp [Memory.readByte]
      · rename_i h1 h2; simp [Memory.readByte, h2, ih]

/-- Every other address reads as before. -/
theorem readByte_writeByte_other (m : Memory) {a c : Nat} (v : Byte) (h : c ≠ a) :
    (m.writeByte a v).readByte c = m.readByte c := by
  induction m with
  | nil => simp [Memory.writeByte, Memory.readByte, h]
  | cons y m ih =>
    obtain ⟨b, w⟩ := y
    simp only [Memory.writeByte]
    split
    · simp [Memory.readByte, h]
    · split
      · rename_i _ hab; subst hab; simp [Memory.readByte, h]
      · simp [Memory.readByte, ih]

/-- An address below every cell holds no byte. -/
theorem readByte_below {m : Memory} {c : Nat} (h : ∀ x ∈ m, c < x.1) : m.readByte c = none := by
  induction m with
  | nil => rfl
  | cons y m ih =>
    obtain ⟨b, w⟩ := y
    have hb : c < b := h (b, w) (by simp)
    simp [Memory.readByte, Nat.ne_of_lt hb, ih fun x hx => h x (by simp [hx])]

/-- Two canonical spaces that read alike everywhere are the same data. -/
theorem memory_ext {m n : Memory} (hm : m.wf = true) (hn : n.wf = true) (h : ∀ a, m.readByte a = n.readByte a) :
    m = n := by
  induction m generalizing n with
  | nil =>
    cases n with
    | nil => rfl
    | cons y n => obtain ⟨b, w⟩ := y; simpa [Memory.readByte] using h b
  | cons x m ih =>
    obtain ⟨a, v⟩ := x
    cases n with
    | nil => simpa [Memory.readByte] using h a
    | cons y n =>
      obtain ⟨b, w⟩ := y
      obtain ⟨ha, hm'⟩ := wf_cons_iff.1 hm
      obtain ⟨hb, hn'⟩ := wf_cons_iff.1 hn
      have hab : a = b := by
        rcases lt_trichotomy a b with hlt | heq | hgt
        · have hA := h a
          rw [readByte_below (m := (b, w) :: n) (fun x hx => by
            rcases List.mem_cons.1 hx with rfl | hx
            · exact hlt
            · exact lt_trans hlt (hb x hx))] at hA
          simp [Memory.readByte] at hA
        · exact heq
        · have hB := h b
          rw [readByte_below (m := (a, v) :: m) (fun x hx => by
            rcases List.mem_cons.1 hx with rfl | hx
            · exact hgt
            · exact lt_trans hgt (ha x hx))] at hB
          simp [Memory.readByte] at hB
      subst hab
      have hvw : v = w := by simpa [Memory.readByte] using h a
      subst hvw
      refine congrArg _ (ih hm' hn' fun c => ?_)
      by_cases hc : c = a
      · subst hc; rw [readByte_below ha, readByte_below hb]
      · simpa [Memory.readByte, hc] using h c

/-! ### Spaces that are plain byte sequences -/

theorem readByte_cellsFrom (a c : Nat) (l : List Byte) :
    (Memory.cellsFrom a l).readByte c = if a ≤ c then l[c - a]? else none := by
  induction l generalizing a with
  | nil => simp [Memory.cellsFrom, Memory.readByte]
  | cons v l ih =>
    simp only [Memory.cellsFrom, Memory.readByte, ih]
    by_cases hca : c = a
    · subst hca; simp
    · by_cases hle : a ≤ c
      · have h1 : a + 1 ≤ c := by omega
        have h2 : c - a = (c - (a + 1)) + 1 := by omega
        simp [hca, hle, h1, h2]
      · have h1 : ¬ a + 1 ≤ c := by omega
        simp [hca, hle, h1]

/-- Address `a` of a byte sequence's space is its `a`-th byte (20_memory.md R40). -/
@[simp] theorem readByte_ofBytes (l : List Byte) (a : Nat) : (Memory.ofBytes l).readByte a = l[a]? := by
  simp [Memory.ofBytes, readByte_cellsFrom]

@[simp] theorem bytes_cellsFrom (a : Nat) (l : List Byte) : (Memory.cellsFrom a l).bytes = l := by
  induction l generalizing a with
  | nil => rfl
  | cons v l ih => exact congrArg (v :: ·) (ih (a + 1))

/-- The bytes of a byte sequence's space are the sequence. -/
@[simp] theorem bytes_ofBytes (l : List Byte) : (Memory.ofBytes l).bytes = l := bytes_cellsFrom 0 l

@[simp] theorem size_ofBytes (l : List Byte) : (Memory.ofBytes l).size = l.length := by
  have h := congrArg List.length (bytes_ofBytes l)
  simpa [Memory.bytes, Memory.size] using h

theorem size_eq_length_bytes (m : Memory) : m.size = m.bytes.length := by simp [Memory.size, Memory.bytes]

@[simp] theorem ofBytes_nil : Memory.ofBytes [] = [] := rfl

/-- `MemRead` inside a byte sequence (20_memory.md R44). -/
theorem readBytes_ofBytes (l : List Byte) (a n : Nat) (h : a + n ≤ l.length) :
    (Memory.ofBytes l).readBytes a n = .ok ((l.drop a).take n) := by
  induction n generalizing a with
  | zero => simp [Memory.readBytes]
  | succ n ih =>
    have ha : a < l.length := by omega
    simp only [Memory.readBytes, readByte_ofBytes, List.getElem?_eq_getElem ha, ih (a + 1) (by omega)]
    rw [List.drop_eq_getElem_cons ha, List.take_succ_cons]

/-- What reading a byte sees after a byte sequence is written: the sequence inside, the old byte outside. -/
theorem readByte_writeBytes (m : Memory) (a c : Nat) (l : List Byte) :
    (m.writeBytes a l).readByte c = if a ≤ c ∧ c < a + l.length then l[c - a]? else m.readByte c := by
  induction l generalizing m a with
  | nil => simp only [Memory.writeBytes, List.length_nil]; rw [if_neg (by omega)]
  | cons v l ih =>
    simp only [Memory.writeBytes, ih, List.length_cons]
    by_cases hca : c = a
    · subst hca
      rw [if_neg (by omega), if_pos (by omega)]
      simp
    · rw [readByte_writeByte_other _ _ hca]
      by_cases hin : a + 1 ≤ c ∧ c < a + 1 + l.length
      · rw [if_pos hin, if_pos (by omega)]
        have h2 : c - a = (c - (a + 1)) + 1 := by omega
        simp [h2]
      · rw [if_neg hin, if_neg (by omega)]

/-- `MemWrite` inside or at the end of a byte sequence (20_memory.md R45): those bytes are replaced or appended. -/
theorem writeBytes_ofBytes (l v : List Byte) (a : Nat) (h : a ≤ l.length) :
    (Memory.ofBytes l).writeBytes a v = Memory.ofBytes (l.take a ++ v ++ l.drop (a + v.length)) := by
  refine memory_ext (writeBytes_wf _ _ (ofBytes_wf l)) (ofBytes_wf _) fun c => ?_
  rw [readByte_writeBytes, readByte_ofBytes, readByte_ofBytes]
  have ht : (l.take a).length = a := by simp [h]
  by_cases hin : a ≤ c ∧ c < a + v.length
  · rw [if_pos hin, List.getElem?_append_left (by simp [ht]; omega), List.getElem?_append_right (by omega), ht]
  · rw [if_neg hin]
    by_cases hc : c < a
    · rw [List.append_assoc, List.getElem?_append_left (by omega), List.getElem?_take_of_lt hc]
    · rw [List.getElem?_append_right (by simp [ht]; omega), List.getElem?_drop]
      congr 1
      simp [ht]; omega

/-- `MemWrite` at the end of a byte sequence appends to it (20_memory.md R45). -/
theorem writeBytes_append (l v : List Byte) :
    (Memory.ofBytes l).writeBytes l.length v = Memory.ofBytes (l ++ v) := by
  rw [writeBytes_ofBytes l v l.length (le_refl _)]
  simp [List.drop_eq_nil_of_le]

/-- `MemWrite` into an empty space (20_memory.md R45). -/
@[simp] theorem writeBytes_nil (v : List Byte) : Memory.writeBytes [] 0 v = Memory.ofBytes v := by
  simpa using writeBytes_append [] v

/-- `memRead` on a space that is a byte sequence. -/
theorem memRead_ofBytes {s : State} {S : Space} {l : List Byte} (hs : s.space S = Memory.ofBytes l) {a n : Nat}
    (h : a + n ≤ l.length) : memRead S a n s = .next ((l.drop a).take n) := by
  simp only [memRead, hs, readBytes_ofBytes l a n h]

/-- `memReadByte` on a space that is a byte sequence. -/
theorem memReadByte_ofBytes {s : State} {S : Space} {l : List Byte} (hs : s.space S = Memory.ofBytes l) {a : Nat}
    (h : a < l.length) : memReadByte S a s = .next l[a] := by
  simp only [memReadByte, hs, readByte_ofBytes, List.getElem?_eq_getElem h]

/-- `memWrite` changes its own space only. -/
theorem memWrite_space_other (s : State) {S T : Space} (a : Nat) (v : List Byte) (h : T ≠ S) :
    (memWrite S a v s).space T = s.space T := space_setSpace_other s _ h

/-- `memWrite` on its own space. -/
@[simp] theorem memWrite_space_same (s : State) (S : Space) (a : Nat) (v : List Byte) :
    (memWrite S a v s).space S = (s.space S).writeBytes a v := space_setSpace_same s S _

/-- `memWrite` keeps the canonical form of every space. -/
theorem memWrite_wf (s : State) (S T : Space) (a : Nat) (v : List Byte) (h : (s.space T).wf = true) :
    ((memWrite S a v s).space T).wf = true := by
  by_cases hT : T = S
  · subst hT; rw [memWrite_space_same]; exact writeBytes_wf a v h
  · rw [memWrite_space_other s a v hT]; exact h

end Sys2Proof.Machine
end

