-- ==== Sys2Proof/Laws/Codec.lean ====
section
/-! SUPPORT. The codec at length 8 (40_codec.md R83): a 64-bit value always has its eight bytes. -/

namespace Sys2Proof.Machine

/-- One more byte at the end of a sequence (40_codec.md R80, one turn of the loop). -/
theorem bytesToInt_append_singleton (b : List Byte) (x : Byte) : bytesToInt (b ++ [x]) = bytesToInt b * 256 + x.toNat := by
  simp [bytesToInt]

/-- `intToBytes` gives exactly the length asked for (40_codec.md R81). -/
theorem intToBytes_length {v L : Nat} {b : List Byte} (h : intToBytes v L = some b) : b.length = L := by
  simp only [intToBytes] at h
  split at h
  · cases h
  · simp only [Option.some.injEq] at h; simp [← h]

/-- A 64-bit value fits eight bytes, so the block step's conversion back never fails. -/
theorem intToBytes_word (w : Word) : intToBytes w.toNat blockSize = some (wordBytes w) := by
  have h : ¬ 256 ^ blockSize ≤ w.toNat := by have := w.isLt; simp only [blockSize]; omega
  simp [wordBytes, intToBytes, h]

@[simp] theorem wordBytes_length (w : Word) : (wordBytes w).length = 8 := intToBytes_length (intToBytes_word w)

@[simp] theorem blockBytes_length (k : Word) (b : List Byte) : (blockBytes k b).length = 8 := wordBytes_length _

@[simp] theorem ecbBytes_length (k : Word) (n : Nat) (l : List Byte) : (ecbBytes k n l).length = 8 * n := by
  induction n generalizing l with
  | zero => rfl
  | succ n ih => simp [ecbBytes, ih]; omega

/-- The pad length lies in 1..8. -/
theorem padLength_bounds (L : Nat) : 1 ≤ padLength blockSize L ∧ padLength blockSize L ≤ 8 := by
  simp only [padLength, blockSize]; omega

theorem padBytes_length (d : List Byte) : (padBytes d).length = d.length + padLength blockSize d.length := by
  simp [padBytes]

/-- A padded sequence is a whole number of blocks. -/
theorem padBytes_length_blocks (d : List Byte) : (padBytes d).length = 8 * (d.length / 8 + 1) := by
  simp only [padBytes_length, padLength, blockSize]; omega

end Sys2Proof.Machine
end

