-- ==== Sys2Proof/Laws/Datapath.lean ====
section
/-! SUPPORT. One lemma per shared operation of the datapath: everything it does on spaces that are plain byte sequences.
Statements cite these instead of unfolding the operations. -/

namespace Sys2Proof.Machine

open Host (Outcome)

/-- `enter` accepts a command that can run (10_state.md R22). -/
theorem enter_ready {s : State} {c : Cmd} (h : s.ready c) : enter c s = .next (s.accept c) := if_pos h

/-- `enter` has no step for another command while BUSY (93_implementation_defined.md U11). -/
theorem enter_not_ready {s : State} {c : Cmd} (h : ¬ s.ready c) : enter c s = .fault .commandWhileBusy := if_neg h

/-- `respond` produces the response of `ST` and `OBUF`. -/
theorem respond_eq (s : State) : respond s = s.answerWith s.rsp := rfl

/-- `raise` produces the error response and leaves no more than any response does (60_exceptions.md R158). -/
theorem raise_eq (st : Status) (s : State) : raise st s = s.answerWith (errorResponse st) :=
  answerWith_eq_of_same _ rfl rfl rfl rfl

/-- The key is loaded from an 8-byte `KBUF`. -/
theorem loadKey_eq {s : State} {k : List Byte} (hk : s.kbuf = Memory.ofBytes k) (h : k.length = 8) :
    loadKey s = .next { s with keyr := toWord k } := by
  have hr := memRead_ofBytes (s := s) (S := .kbuf) hk (a := 0) (n := keySize) (by simp [keySize, h])
  rw [loadKey, hr, andThen_next, List.drop_zero, List.take_of_length_le (by simp [h, keySize])]

/-! ### Padding -/

theorem writeRep_eq {s : State} {l : List Byte} (hs : s.wbuf = Memory.ofBytes l) (v : Byte) (n : Nat) :
    writeRep l.length v n s = { s with wbuf := Memory.ofBytes (l ++ List.replicate n v) } := by
  induction n generalizing s l with
  | zero => simp [writeRep, ← hs]
  | succ n ih =>
    have hw : (memWrite .wbuf l.length [v] s).wbuf = Memory.ofBytes (l ++ [v]) := by
      simp [memWrite, hs, writeBytes_append]
    have h1 := ih hw
    rw [List.length_append, List.length_singleton] at h1
    rw [writeRep, h1]
    simp [memWrite, List.replicate_succ]

/-- `pad`: `NR` is the pad length and `WBUF` the padded data; nothing else changes. -/
theorem padUnit_eq {s : State} {d : List Byte} (hd : s.dbuf = Memory.ofBytes d) :
    padUnit s = .next
      { s with nr := BitVec.ofNat 8 (padLength blockSize d.length), wbuf := Memory.ofBytes (padBytes d) } := by
  have hr := memRead_ofBytes (s := s) (S := .dbuf) hd (a := 0) (n := d.length) (by simp)
  have hL : s.dbuf.size = d.length := by simp [hd]
  simp only [padUnit, hL]
  rw [hr, andThen_next, List.drop_zero, List.take_length, writeRep_eq (l := d) (by simp [memWrite])]
  simp [memWrite, padBytes]

/-- `OBUF` becomes the first `m` bytes of `WBUF`; nothing else changes. -/
theorem keepFirst_eq {s : State} {p : List Byte} (hp : s.wbuf = Memory.ofBytes p) {m : Nat} (h : m ≤ p.length) :
    keepFirst m s = .next { s with obuf := Memory.ofBytes (p.take m) } := by
  have hr := memRead_ofBytes (s := s) (S := .wbuf) hp (a := 0) (n := m) (by omega)
  simp [keepFirst, hr, memWrite]

/-- The comparison loop answers whether all the bytes it is given agree. -/
theorem padBytesMatch_eq {s : State} {p : List Byte} (hp : s.wbuf = Memory.ofBytes p) (v : Byte) (j count : Nat)
    (h : j + count ≤ p.length) :
    padBytesMatch v j count s = .next (decide (∀ b ∈ (p.drop j).take count, b = v)) := by
  induction count generalizing j with
  | zero => simp [padBytesMatch]
  | succ n ih =>
    have hj : j < p.length := by omega
    rw [padBytesMatch, memReadByte_ofBytes (s := s) (S := .wbuf) hp hj, andThen_next,
      List.drop_eq_getElem_cons hj, List.take_succ_cons, ih (j + 1) (by omega)]
    by_cases hv : p[j] = v <;> simp [hv]

theorem getLast_byte {p : List Byte} (h : p ≠ []) : p[p.length - 1]'(by
    have := List.length_pos_of_ne_nil h; omega) = p.getLastD 0 := by
  rw [List.getLastD_eq_getLast?, List.getLast?_eq_getElem?, List.getElem?_eq_getElem (by
    have := List.length_pos_of_ne_nil h; omega)]
  rfl

/-- `unpad` on a non-empty `WBUF`: `NR` is the last byte; on success `OBUF` is the result, on failure `ST` is written;
nothing else changes (42_padding.md R103). -/
theorem unpadUnit_eq {s : State} {p : List Byte} (hp : s.wbuf = Memory.ofBytes p) (hne : p ≠ []) :
    unpadUnit s = .next
      (match unpadBytes s.params.padCheck (Config.unpadZeroKeepsAll s.draws) p (p.getLastD 0).toNat with
        | .ok d => ({ s with nr := p.getLastD 0, obuf := Memory.ofBytes d }, none)
        | .error st => ({ s with nr := p.getLastD 0, st := st }, some st)) := by
  have hpos := List.length_pos_of_ne_nil hne
  have hb := memReadByte_ofBytes (s := s) (S := .wbuf) hp (a := p.length - 1) (by omega)
  rw [getLast_byte hne] at hb
  generalize hn : p.getLastD 0 = n at hb ⊢
  have hk : ∀ m, m ≤ p.length → keepFirst m { s with nr := n } =
      .next { s with nr := n, obuf := Memory.ofBytes (p.take m) } :=
    fun m hm => keepFirst_eq (s := { s with nr := n }) hp hm
  have hm := fun j c h => padBytesMatch_eq (s := { s with nr := n }) hp n j c h
  have hL : s.wbuf.size = p.length := by simp [hp]
  simp only [unpadUnit, hL, if_neg (Nat.ne_of_gt hpos), hb, andThen_next]
  cases hc : s.params.padCheck with
  | unchecked =>
    simp only [unpadUnchecked, unpadOk, unpadBytes]
    split
    · cases Config.unpadZeroKeepsAll s.draws <;> simp [hk]
    · split
      · simp [hk]
      · rename_i h2 h3
        have hz : p.length - n.toNat = 0 := by omega
        simp [hk, hz]
  | range =>
    simp only [unpadRange, unpadOk, unpadFail, unpadBytes]
    split <;> simp [hk]
  | full =>
    simp only [unpadFull, unpadOk, unpadFail, unpadBytes]
    split
    · simp
    · rename_i h
      have hlen : p.length - n.toNat + n.toNat = p.length := by omega
      rw [hm _ _ (by omega)]
      have htake : (p.drop (p.length - n.toNat)).take n.toNat = p.drop (p.length - n.toNat) := by
        apply List.take_of_length_le; simp; omega
      simp only [htake, andThen_next, BitVec.ofNat_toNat, BitVec.setWidth_eq, decide_eq_true_eq]
      split <;> simp [hk]

/-! ### Blocks -/

/-- What the block steps into `dst` leave alone: everything but `dst`, `IDX` and the lanes' `XR` and `YR`
(43_ecb_mode.md R120). -/
structure BlockFrame (dst : Space) (s t : State) : Prop where
  params : t.params = s.params
  phase : t.phase = s.phase
  op : t.op = s.op
  klen : t.klen = s.klen
  dlen : t.dlen = s.dlen
  spaces : ∀ T, T ≠ dst → t.space T = s.space T
  keyr : t.keyr = s.keyr
  lanes : t.lanes.length = s.lanes.length
  nr : t.nr = s.nr
  nblk : t.nblk = s.nblk
  st : t.st = s.st
  ret : t.ret = s.ret
  todo : t.todo = s.todo
  responses : t.responses = s.responses
  draws : t.draws = s.draws

theorem BlockFrame.trans {dst : Space} {s t u : State} (h1 : BlockFrame dst s t) (h2 : BlockFrame dst t u) :
    BlockFrame dst s u where
  params := h2.params.trans h1.params
  phase := h2.phase.trans h1.phase
  op := h2.op.trans h1.op
  klen := h2.klen.trans h1.klen
  dlen := h2.dlen.trans h1.dlen
  spaces := fun T hT => (h2.spaces T hT).trans (h1.spaces T hT)
  keyr := h2.keyr.trans h1.keyr
  lanes := h2.lanes.trans h1.lanes
  nr := h2.nr.trans h1.nr
  nblk := h2.nblk.trans h1.nblk
  st := h2.st.trans h1.st
  ret := h2.ret.trans h1.ret
  todo := h2.todo.trans h1.todo
  responses := h2.responses.trans h1.responses
  draws := h2.draws.trans h1.draws

/-- A block step answers the state with block `i` of `dst` and the lane's registers written. -/
theorem blockStepOn_eq {s : State} {src dst : Space} {l : List Byte} (hs : s.space src = Memory.ofBytes l)
    (lane i : Nat) (h : 8 * i + 8 ≤ l.length) :
    blockStepOn lane src dst i s = .next
      (memWrite dst (8 * i) (blockBytes s.keyr ((l.drop (8 * i)).take 8))
        ((s.setXR lane (toWord ((l.drop (8 * i)).take 8))).setYR lane
          (transform (toWord ((l.drop (8 * i)).take 8)) s.keyr))) := by
  have hr := memRead_ofBytes hs (a := 8 * i) (n := 8) h
  simp only [blockStepOn, blockSize] at hr ⊢
  rw [hr, andThen_next]
  have hw := intToBytes_word (transform (toWord ((l.drop (8 * i)).take 8)) s.keyr)
  rw [blockSize] at hw
  simp only [hw]
  rfl

theorem blockStepOn_frame {s t : State} {lane i : Nat} {src dst : Space} (h : blockStepOn lane src dst i s = .next t) :
    BlockFrame dst s t ∧ t.idx = s.idx := by
  obtain ⟨b, -, h⟩ := andThen_eq_next h
  simp only [intToBytes_word, Outcome.next.injEq] at h
  subst h
  refine ⟨⟨?_, ?_, ?_, ?_, ?_, ?_, ?_, ?_, ?_, ?_, ?_, ?_, ?_, ?_, ?_⟩, ?_⟩
  case refine_6 => intro T hT; rw [memWrite_space_other _ _ _ hT]; simp
  all_goals simp [memWrite]

/-- The loop with `n` blocks to go appends the next `n` transformed blocks of `src` to `dst` and ends with `IDX` raised
by `n` (43_ecb_mode.md R121). -/
theorem blockLoop_next {src dst : Space} {l : List Byte} (hne : src ≠ dst) (n : Nat) {s : State} {o : List Byte}
    (hs : s.space src = Memory.ofBytes l) (ho : s.space dst = Memory.ofBytes o) (hol : o.length = 8 * s.idx)
    (hl : 8 * (s.idx + n) ≤ l.length) :
    ∃ t, blockLoop src dst n s = .next t ∧ BlockFrame dst s t ∧ t.idx = s.idx + n ∧
      t.space dst = Memory.ofBytes (o ++ ecbBytes s.keyr n (l.drop (8 * s.idx))) := by
  induction n generalizing s o with
  | zero => exact ⟨s, rfl, ⟨rfl, rfl, rfl, rfl, rfl, fun _ _ => rfl, rfl, rfl, rfl, rfl, rfl, rfl, rfl, rfl, rfl⟩, rfl,
      by simpa [ecbBytes] using ho⟩
  | succ n ih =>
    have he := blockStepOn_eq (dst := dst) hs (laneOf s s.idx) s.idx (by omega)
    obtain ⟨t, ht⟩ : ∃ t, blockStepOn (laneOf s s.idx) src dst s.idx s = .next t := ⟨_, he⟩
    obtain ⟨hf, hidx⟩ := blockStepOn_frame ht
    have hd : t.space dst = Memory.ofBytes (o ++ blockBytes s.keyr ((l.drop (8 * s.idx)).take 8)) := by
      rw [he] at ht
      rw [← Outcome.next.inj ht]
      simp only [memWrite_space_same, setYR_space, setXR_space, ho, ← hol, writeBytes_append]
    have hu : BlockFrame dst t { t with idx := t.idx + 1 } :=
      ⟨rfl, rfl, rfl, rfl, rfl, fun T _ => by cases T <;> rfl, rfl, rfl, rfl, rfl, rfl, rfl, rfl, rfl, rfl⟩
    obtain ⟨u, hu1, hu2, hu3, hu4⟩ := ih (s := { t with idx := t.idx + 1 })
      (o := o ++ blockBytes s.keyr ((l.drop (8 * s.idx)).take 8))
      (by rw [← hs, ← hf.spaces src hne]; cases src <;> rfl) (by rw [← hd]; cases dst <;> rfl)
      (by simp [hidx, hol]; omega) (by simp only [hidx]; omega)
    refine ⟨u, by simp only [blockLoop, blockStep, ht, andThen_next, hu1], (hf.trans hu).trans hu2,
      by rw [hu3]; simp only [hidx]; omega, ?_⟩
    rw [hu4]
    simp only [hidx, hf.keyr, ecbBytes, blockSize, List.drop_drop, List.append_assoc, Nat.mul_add, Nat.mul_one]

/-- With one lane the loop leaves the last block it took in `XR` and its transform in `YR` (43_ecb_mode.md R120, R121). -/
theorem blockLoop_one_lane {src dst : Space} {l : List Byte} (hne : src ≠ dst) (n : Nat) {s t : State}
    (h1 : s.params.nlanes = 1) (hs : s.space src = Memory.ofBytes l) (hl : 8 * (s.idx + n) ≤ l.length)
    (h : blockLoop src dst n s = .next t) :
    t.lanes = s.lanes ∧ (0 < n → t.xr = toWord ((l.drop (8 * (s.idx + n - 1))).take 8) ∧ t.yr = transform t.xr s.keyr) := by
  induction n generalizing s t with
  | zero =>
    cases h
    exact ⟨rfl, fun hn => absurd hn (Nat.lt_irrefl 0)⟩
  | succ n ih =>
    have he := blockStepOn_eq (dst := dst) hs 0 s.idx (by omega)
    obtain ⟨u, hu⟩ : ∃ u, blockStepOn 0 src dst s.idx s = .next u := ⟨_, he⟩
    obtain ⟨hf, hidx⟩ := blockStepOn_frame hu
    have hl0 : laneOf s s.idx = 0 := by simp [laneOf, h1, Nat.mod_one]
    have hu' := Outcome.next.inj (he.symm.trans hu)
    simp only [blockLoop, blockStep, hl0, hu, andThen_next] at h
    obtain ⟨g1, g2⟩ := ih (s := { u with idx := u.idx + 1 }) (by simpa [hf.params] using h1)
      (by rw [← hs, ← hf.spaces src hne]; cases src <;> rfl) (by simp only [hidx]; omega) h
    simp only [hidx, hf.keyr] at g1 g2
    refine ⟨g1.trans (by rw [← hu']; simp [memWrite, State.setXR, State.setYR]), fun _ => ?_⟩
    rcases Nat.eq_zero_or_pos n with rfl | hn
    · cases h
      simp only [← hu']
      simp [memWrite, State.setXR, State.setYR]
    · rw [show s.idx + (n + 1) - 1 = s.idx + 1 + n - 1 by omega]
      exact g2 hn

/-- The loop over the whole of `src`: `dst` is the transformed blocks, `IDX = NBLK = len(src) / 8`, and one lane's registers hold the last block. -/
theorem runBlocks_next {src dst : Space} {l : List Byte} (hne : src ≠ dst) {s : State} {n : Nat}
    (hs : s.space src = Memory.ofBytes l) (hl : l.length = 8 * n) :
    ∃ t, runBlocks src dst s = .next t ∧ BlockFrame dst { s with nblk := n } t ∧ t.idx = n ∧
      t.space dst = Memory.ofBytes (ecbBytes s.keyr n l) ∧
      (s.params.nlanes = 1 → t.lanes = s.lanes ∧
        (0 < n → t.xr = toWord (l.drop (8 * (n - 1))) ∧ t.yr = transform t.xr s.keyr)) := by
  have hn : (s.space src).size / blockSize = n := by rw [hs, size_ofBytes, hl, blockSize]; omega
  obtain ⟨t, h1, h2, h3, h4⟩ := blockLoop_next (dst := dst) (l := l) hne n
    (s := { s with nblk := n, idx := 0 }.setSpace dst []) (o := [])
    (by rw [space_setSpace_other _ _ hne, ← hs]; cases src <;> rfl) (by simp) (by simp) (by simp [hl])
  have hf : BlockFrame dst { s with nblk := n } ({ s with nblk := n, idx := 0 }.setSpace dst []) := by
    refine ⟨?_, ?_, ?_, ?_, ?_, ?_, ?_, ?_, ?_, ?_, ?_, ?_, ?_, ?_, ?_⟩
    case refine_6 => intro T hT; rw [space_setSpace_other _ _ hT]; cases T <;> rfl
    all_goals simp
  refine ⟨t, by simp only [runBlocks, hn, h1], hf.trans h2, by simpa using h3, by simpa using h4, fun hn1 => ?_⟩
  obtain ⟨g1, g2⟩ := blockLoop_one_lane (l := l) hne n (by simpa using hn1)
    (by rw [space_setSpace_other _ _ hne, ← hs]; cases src <;> rfl) (by simp [hl]) h1
  refine ⟨by simpa using g1, fun hpos => ?_⟩
  obtain ⟨gx, gy⟩ := g2 hpos
  rw [List.take_of_length_le (by simp; omega)] at gx
  exact ⟨by simpa using gx, by simpa using gy⟩

/-! ### The mode driver -/

/-- `ecbEncrypt` with an 8-byte key: `OBUF` is the transformed blocks of the padded data (43_ecb_mode.md R116). -/
theorem ecbEncryptUnit_next {s : State} {d k : List Byte} (hk : s.kbuf = Memory.ofBytes k) (hkl : k.length = 8)
    (hd : s.dbuf = Memory.ofBytes d) :
    ∃ t, ecbEncryptUnit s = .next t ∧ t.idx = d.length / 8 + 1 ∧
      t.obuf = Memory.ofBytes (ecbBytes (toWord k) (d.length / 8 + 1) (padBytes d)) ∧
      BlockFrame .obuf
        { s with
          keyr := toWord k, nr := BitVec.ofNat 8 (padLength blockSize d.length)
          wbuf := Memory.ofBytes (padBytes d), nblk := d.length / 8 + 1 } t ∧
      (s.params.nlanes = 1 → t.lanes = s.lanes ∧
        t.xr = toWord ((padBytes d).drop (8 * (d.length / 8))) ∧ t.yr = transform t.xr (toWord k)) := by
  obtain ⟨t, h1, h2, h3, h4, h5⟩ := runBlocks_next (src := .wbuf) (dst := .obuf) (by decide)
    (s := { s with
      keyr := toWord k, nr := BitVec.ofNat 8 (padLength blockSize d.length)
      wbuf := Memory.ofBytes (padBytes d) }) rfl (padBytes_length_blocks d)
  refine ⟨t, ?_, h3, h4, h2, fun hn => ⟨(h5 hn).1, (h5 hn).2 (Nat.succ_pos _)⟩⟩
  rw [ecbEncryptUnit, loadKey_eq hk hkl, andThen_next, padUnit_eq (s := { s with keyr := toWord k }) hd, andThen_next,
    h1]

/-- `ecbDecrypt` of a misaligned length: the failure, and no block is processed (43_ecb_mode.md R118). -/
theorem ecbDecryptUnit_misaligned {s : State} (h : s.dbuf.size % blockSize ≠ 0) :
    ecbDecryptUnit s = .next
      ({ s with st := invalidArgument causeDataLength }, some (invalidArgument causeDataLength)) := if_pos h

/-- The state of `ecbDecrypt` just before `unpad`: `WBUF` is the transformed blocks of the data (43_ecb_mode.md R117). -/
theorem ecbDecryptUnit_blocks {s : State} {c k : List Byte} (hk : s.kbuf = Memory.ofBytes k) (hkl : k.length = 8)
    (hc : s.dbuf = Memory.ofBytes c) (hcl : c.length % 8 = 0) :
    ∃ t, ecbDecryptUnit s = unpadUnit t ∧ t.idx = c.length / 8 ∧
      t.wbuf = Memory.ofBytes (ecbBytes (toWord k) (c.length / 8) c) ∧
      BlockFrame .wbuf { s with keyr := toWord k, nblk := c.length / 8 } t ∧
      (s.params.nlanes = 1 → t.lanes = s.lanes ∧
        (0 < c.length / 8 → t.xr = toWord (c.drop (8 * (c.length / 8 - 1))) ∧ t.yr = transform t.xr (toWord k))) := by
  obtain ⟨t, h1, h2, h3, h4, h5⟩ := runBlocks_next (src := .dbuf) (dst := .wbuf) (by decide)
    (s := { s with keyr := toWord k }) (l := c) (n := c.length / 8) hc (by omega)
  refine ⟨t, ?_, h3, h4, h2, h5⟩
  have hz : ¬ s.dbuf.size % blockSize ≠ 0 := by simp [hc, blockSize, hcl]
  rw [ecbDecryptUnit, if_neg hz, loadKey_eq hk hkl, andThen_next, h1, andThen_next]

end Sys2Proof.Machine
end

