-- ==== Sys2Proof/Laws/Decode.lean ====
section
/-! SUPPORT. Everything the decoder can answer, said once. -/

namespace Sys2Proof

/-- The opcode map at its four values (30_encoding.md R61). -/
@[simp] theorem selectCommand_encryptBlock (d k : List Byte) : selectCommand opEncryptBlock d k = .encryptBlock d k := by
  simp [selectCommand, opEncryptBlock]

@[simp] theorem selectCommand_decryptBlock (d k : List Byte) : selectCommand opDecryptBlock d k = .decryptBlock d k := by
  simp [selectCommand, opDecryptBlock]

@[simp] theorem selectCommand_encryptBytes (d k : List Byte) : selectCommand opEncryptBytes d k = .encryptBytes d k := by
  simp [selectCommand, opEncryptBytes]

@[simp] theorem selectCommand_decryptBytes (d k : List Byte) : selectCommand opDecryptBytes d k = .decryptBytes d k := by
  simp [selectCommand, opDecryptBytes]

/-- There are four operation codes (30_encoding.md R66). -/
theorem op_cases (op : BitVec 2) :
    op = opEncryptBlock ∨ op = opDecryptBlock ∨ op = opEncryptBytes ∨ op = opDecryptBytes := by
  revert op; decide

/-- The decoder answers an instruction exactly for the formed tuples, and it is the one the opcode map selects. -/
theorem decode_ok_iff (p : Params) (c : Cmd) (i : Instr) :
    decode p c = .ok i ↔ c.wf p = true ∧ i = selectCommand c.op c.data c.key := by
  unfold decode Cmd.wf
  by_cases h1 : c.klen = c.key.length
  · by_cases h2 : c.dlen = c.data.length
    · rw [h1, h2]
      cases Params.admits p.maxKlen c.key.length <;> cases Params.admits p.maxDlen c.data.length <;> simp [eq_comm]
    · simp [h1, h2]
  · simp [h1]

end Sys2Proof
end

