-- ==== Sys2Proof/Laws/PerInstr.lean ====
section
/-! SUPPORT. One statement per instruction, as syntax: an instruction with an encoding is what the opcode map selects from
its tuple, and the tuple's lengths are its operands' (30_encoding.md R61, R62); the others have none (R68). -/

namespace Sys2Proof.Laws.Encoding

/-- The tuple of an instruction, where it has one, carries its operands whole and selects it. -/
def Statement (i : Instr) : Prop :=
  ∀ c, encode i = some c →
    c.klen = c.key.length ∧ c.dlen = c.data.length ∧ selectCommand c.op c.data c.key = i

theorem encryptBlock (d k : List Byte) : Statement (.encryptBlock d k) := by
  rintro c ⟨⟩
  exact ⟨rfl, rfl, selectCommand_encryptBlock d k⟩

theorem decryptBlock (d k : List Byte) : Statement (.decryptBlock d k) := by
  rintro c ⟨⟩
  exact ⟨rfl, rfl, selectCommand_decryptBlock d k⟩

theorem encryptBytes (d k : List Byte) : Statement (.encryptBytes d k) := by
  rintro c ⟨⟩
  exact ⟨rfl, rfl, selectCommand_encryptBytes d k⟩

theorem decryptBytes (d k : List Byte) : Statement (.decryptBytes d k) := by
  rintro c ⟨⟩
  exact ⟨rfl, rfl, selectCommand_decryptBytes d k⟩

theorem bytesToInt (b : List Byte) : Statement (.bytesToInt b) := nofun
theorem intToBytes (v L : Nat) : Statement (.intToBytes v L) := nofun
theorem transform (x k : Word) : Statement (.transform x k) := nofun
theorem pad (d : List Byte) : Statement (.pad d) := nofun
theorem unpad (p : List Byte) : Statement (.unpad p) := nofun
theorem ecbEncrypt (d k : List Byte) : Statement (.ecbEncrypt d k) := nofun
theorem ecbDecrypt (c k : List Byte) : Statement (.ecbDecrypt c k) := nofun

end Sys2Proof.Laws.Encoding
end

