-- ==== Sys2Proof/Laws/Step.lean ====
section
/-! SUPPORT. Everything a step can do, said once; the latch; and a run of one more step. -/

namespace Sys2Proof.Machine

open Host (Outcome)

/-- The latch holds the command that was accepted (10_state.md R23). -/
@[simp] theorem latched_accept (s : State) (c : Cmd) : (s.accept c).latched = c := by simp [State.latched]

/-- The command in the latch can always go on. -/
theorem ready_latched (s : State) : s.ready s.latched := Or.inr rfl

/-- The four things an idle step can do: stay, wait, go through reset, accept a formed command. -/
theorem hostStep_cases {s t : State} (h : hostStep s = .next t) :
    (s.todo = [] ∧ t = s) ∨ (∃ rest, s.todo = .await :: rest ∧ t = { s with todo := rest }) ∨
      (s.resetAsserted = true ∧ t = s.takeReset) ∨
      (∃ c rest i, s.todo = .present c :: rest ∧ decode s.params c = .ok i ∧
        t = State.accept { s with todo := rest } c) := by
  unfold hostStep at h
  split at h
  · rename_i he
    exact .inl ⟨he, (Outcome.next.inj h).symm⟩
  · rename_i rest he
    exact .inr (.inl ⟨rest, he, (Outcome.next.inj h).symm⟩)
  · rename_i rest he
    exact .inr (.inr (.inl ⟨by simp [State.resetAsserted, he], (Outcome.next.inj h).symm⟩))
  · rename_i c rest he
    split at h
    · rename_i i hd
      exact .inr (.inr (.inr ⟨c, rest, i, he, hd, (Outcome.next.inj h).symm⟩))
    · cases h

/-- What a step can do: an idle core's host acts, reset drops the command in flight, or the latched command runs. -/
theorem step_cases {s t : State} (h : step s = .next t) :
    (s.phase = .idle ∧ hostStep s = .next t) ∨
      (s.phase = .busy ∧ s.resetAsserted = true ∧ t = s.takeReset) ∨
      (s.phase = .busy ∧ s.resetAsserted = false ∧ ∃ i, decode s.params s.latched = .ok i ∧ exec i s = .next t) := by
  unfold step at h
  split at h
  · rename_i hp
    exact .inl ⟨hp, h⟩
  · rename_i hp
    split at h
    · rename_i hr
      exact .inr (.inl ⟨hp, hr, (Outcome.next.inj h).symm⟩)
    · rename_i hr
      split at h
      · rename_i i hd
        exact .inr (.inr ⟨hp, by simpa using hr, i, hd, h⟩)
      · cases h

/-- One more step of a run. -/
theorem run_succ (M : Host.Core) (k : Nat) {s t : M.State} (h : M.step s = .next t) : M.run (k + 1) s = M.run k t := by
  simp [Host.Core.run, h]

end Sys2Proof.Machine
end

