-- ==== Sys2Proof/Tests/Slice0.lean ====
section
/-! SUPPORT. The model's own tests: ill-formed terms that WellFormed refuses, tuples and words written out from
30_encoding.md, at most two one-step tests per instruction with the expected values of 95_test_vectors.md, and for each
statement with hypotheses a witness that meets them. -/

namespace Sys2Proof.Tests

open Sys2Proof.Machine

/-- A byte string as 95_test_vectors.md writes it: its length and its hexadecimal digits. -/
def hx (len v : Nat) : List Byte := (List.range len).map fun k => BitVec.ofNat 8 (v / 256 ^ (len - 1 - k))

/-- The keys of 95_test_vectors.md. -/
def K0 : List Byte := hx 8 0
def K1 : List Byte := hx 8 0x0123456789abcdef
def K2 : List Byte := hx 8 0x133457799bbcdff1
/-- The five bytes of "short" (95_test_vectors.md S4). -/
def shortKey : List Byte := hx 5 0x73686f7274

/-- The reset core with another PAD_CHECK. -/
def under (pc : PadCheck) : State := { State.reset with params := { Params.hardware with padCheck := pc } }

/-- The reset core with three lanes. -/
def threeLanes : State :=
  { State.reset with params := { Params.hardware with nlanes := 3 }, lanes := [default, default] }

/-- Parameters with the smallest bounds an interface may have (00_scope.md R10). -/
def bounded : Params := { Params.hardware with maxKlen := some 9, maxDlen := some 9 }

/-- What the host has received after one step with this command in flight. -/
def stepResponses (s : State) (c : Cmd) : Option (List Response) :=
  match step (s.withCommand c) with
  | .next t => some t.responses
  | .fault _ => none
  | .refused _ => none

/-- What a unit-level function returned. -/
def returned (i : Instr) (s : State) : Option Return :=
  match exec i s with
  | .next t => some t.ret
  | .fault _ => none
  | .refused _ => none

/-- One field of the next state. -/
def after {α : Type} (i : Instr) (s : State) (f : State → α) : Option α :=
  match exec i s with
  | .next t => some (f t)
  | .fault _ => none
  | .refused _ => none

/-! ### WellFormed: an ill-formed term for each check -/

theorem test_wf_params : Params.hardware.wf = true ∧ bounded.wf = true := by decide
theorem test_wf_params_no_lane : Params.wf { Params.hardware with nlanes := 0 } = false := by decide
theorem test_wf_params_key_bound : Params.wf { Params.hardware with maxKlen := some 8 } = false := by decide
theorem test_wf_params_data_bound : Params.wf { Params.hardware with maxDlen := some 8 } = false := by decide

theorem test_wf_cmd : (Cmd.of 0b10#2 (hx 9 1) (hx 9 1)).wf bounded = true := by decide
theorem test_wf_cmd_key_bytes : Cmd.wf bounded { Cmd.of 0b10#2 (hx 9 1) (hx 9 1) with klen := 8 } = false := by decide
theorem test_wf_cmd_data_bytes : Cmd.wf bounded { Cmd.of 0b10#2 (hx 9 1) (hx 9 1) with dlen := 8 } = false := by decide
theorem test_wf_cmd_key_bound : (Cmd.of 0b10#2 [] (hx 10 1)).wf bounded = false := by decide
theorem test_wf_cmd_data_bound : (Cmd.of 0b10#2 (hx 10 1) []).wf bounded = false := by decide

theorem test_wf_instr_key_bound : Instr.wf bounded (.encryptBlock [] (hx 10 1)) = false
    ∧ Instr.wf bounded (.decryptBytes [] (hx 10 1)) = false := by decide
theorem test_wf_instr_data_bound : Instr.wf bounded (.decryptBlock (hx 10 1) []) = false
    ∧ Instr.wf bounded (.encryptBytes (hx 10 1) []) = false := by decide
theorem test_wf_instr_wrong_length_is_formed : Instr.wf bounded (.encryptBlock (hx 7 1) shortKey) = true := by decide
theorem test_wf_unpad_empty : Instr.wf bounded (.unpad []) = false := by decide
theorem test_wf_ecbEncrypt_key : Instr.wf bounded (.ecbEncrypt [] (hx 9 1)) = false := by decide
theorem test_wf_ecbDecrypt_key : Instr.wf bounded (.ecbDecrypt K1 (hx 7 1)) = false := by decide
theorem test_wf_ecbDecrypt_empty : Instr.wf bounded (.ecbDecrypt [] K1) = false := by decide

/-! ### Decode: the words of R61 and the tuples of 95_test_vectors.md Part 3 -/

/-- Op 00 (P3 step 1). -/
theorem test_decode_encryptBlock :
    decode Params.hardware
        { op := 0b00#2, klen := 8, dlen := 8, key := hx 8 0x133457799bbcdff1, data := hx 8 0x0123456789abcdef }
      = .ok (.encryptBlock (hx 8 0x0123456789abcdef) (hx 8 0x133457799bbcdff1)) := by decide

/-- Op 01 (P3 step 3). -/
theorem test_decode_decryptBlock :
    decode Params.hardware
        { op := 0b01#2, klen := 8, dlen := 8, key := hx 8 0x133457799bbcdff1, data := hx 8 0x1217121e1217121e }
      = .ok (.decryptBlock (hx 8 0x1217121e1217121e) (hx 8 0x133457799bbcdff1)) := by decide

/-- Op 10 (P4 step 1). -/
theorem test_decode_encryptBytes :
    decode Params.hardware { op := 0b10#2, klen := 5, dlen := 5, key := hx 5 0x73686f7274, data := hx 5 0x68656c6c6f }
      = .ok (.encryptBytes (hx 5 0x68656c6c6f) (hx 5 0x73686f7274)) := by decide

/-- Op 11 (P5 step 4). -/
theorem test_decode_decryptBytes :
    decode Params.hardware { op := 0b11#2, klen := 8, dlen := 0, key := hx 8 0x0123456789abcdef, data := [] }
      = .ok (.decryptBytes [] (hx 8 0x0123456789abcdef)) := by decide

/-- The four words of spec/opcode_table.json, and one with a bit above `op`. -/
theorem test_decode_table_words :
    (List.range 5).map (decodeTableWord 8)
      = [some (.encryptBlock [] []), some (.decryptBlock [] []), some (.encryptBytes [] []),
         some (.decryptBytes [] []), none] := by decide

/-- Each reason to turn a tuple away (30_encoding.md R62, 00_scope.md R10). -/
theorem test_decode_errors :
    decode bounded { Cmd.of 0b00#2 K1 K1 with klen := 7 } = .error .keyBytesDiffer
    ∧ decode bounded { Cmd.of 0b00#2 K1 K1 with dlen := 9 } = .error .dataBytesDiffer
    ∧ decode bounded (Cmd.of 0b00#2 K1 (hx 10 0)) = .error .keyTooLong
    ∧ decode bounded (Cmd.of 0b00#2 (hx 10 0) K1) = .error .dataTooLong := by decide

/-- The unit-level functions have no encoding (30_encoding.md R68). -/
theorem test_encode_unit : [Instr.bytesToInt [], .intToBytes 0 0, .transform 0 0, .pad [], .unpad K1, .ecbEncrypt [] K1,
    .ecbDecrypt K1 K1].map encode = List.replicate 7 none := by decide

/-! ### Written forms (30_encoding.md R70, 95_test_vectors.md Part 3) -/

/-- P1 step 1 as it is written, both ways. -/
theorem test_written_command :
    writeCmd (Cmd.of 0b10#2 (hx 5 0x68656c6c6f) K1) = "encryptBytes 68656c6c6f, 0123456789abcdef".toList
    ∧ readInstr "decryptBytes [], 0123456789abcdef".toList = some (.decryptBytes [] K1)
    ∧ readInstr "DecryptBytes [], 0123456789abcdef".toList = none := by decide

/-- P1 step 1 as a tuple. -/
theorem test_written_tuple : writeCmdTuple (Cmd.of 0b10#2 (hx 5 0x68656c6c6f) K1)
    = "op=10 klen=8 dlen=5 key=0123456789abcdef data=68656c6c6f".toList := by decide

/-- Responses: P4 step 2 and P5 step 2. -/
theorem test_written_response :
    writeResponse { cls := .invalidArgument, cause := 0b0011#4, olen := 0, out := [] }
      = "INVALID_ARGUMENT".toList ++ Char.ofNat 123 :: ("KEY_LENGTH,DATA_LENGTH".toList ++ [Char.ofNat 125])
    ∧ writeResponse { cls := .ok, cause := 0, olen := 0, out := [] } = "OK []".toList
    ∧ writeResponseTuple { cls := .paddingError, cause := 0b1000#4, olen := 0, out := [] }
      = "class=10 cause=1000 olen=0".toList := by decide

/-! ### The commands, one step each -/

/-- Table 2.7. -/
theorem test_encryptBlock : stepResponses State.reset (Cmd.of 0b00#2 (hx 8 0x0123456789abcdef) K2)
    = some [{ cls := .ok, cause := 0, olen := 8, out := hx 8 0x1217121e1217121e }] := by decide

/-- Table 2.8 and P4 step 2: both flags. -/
theorem test_encryptBlock_both_lengths : stepResponses State.reset (Cmd.of 0b00#2 (hx 7 0x31323334353637) shortKey)
    = some [{ cls := .invalidArgument, cause := 0b0011#4, olen := 0, out := [] }] := by decide

/-- Table 2.7: no unpadding on a block command. -/
theorem test_decryptBlock : stepResponses State.reset (Cmd.of 0b01#2 (hx 8 0x4142434445464701) K0)
    = some [{ cls := .ok, cause := 0, olen := 8, out := hx 8 0x4142434445464701 }] := by decide

/-- Table 2.8: a key of nine bytes. -/
theorem test_decryptBlock_key_length :
    stepResponses State.reset (Cmd.of 0b01#2 (hx 8 0x4142434445464748) (hx 9 0x0123456789abcdef01))
      = some [{ cls := .invalidArgument, cause := 0b0001#4, olen := 0, out := [] }] := by decide

/-- Table 2.5, nine bytes of data. -/
theorem test_encryptBytes : stepResponses State.reset (Cmd.of 0b10#2 (hx 9 0x414243444546474849) K1)
    = some [{ cls := .ok, cause := 0, olen := 16, out := hx 16 0x40610623cced8aa7482442608eaccae8 }] := by decide

/-- S5 and P5 step 1: the empty message. -/
theorem test_encryptBytes_empty : stepResponses State.reset (Cmd.of 0b10#2 [] K1)
    = some [{ cls := .ok, cause := 0, olen := 8, out := hx 8 0x092b4d6f81a3c5e7 }] := by decide

/-- Table 2.6: two blocks, the last byte 01. -/
theorem test_decryptBytes :
    stepResponses State.reset (Cmd.of 0b11#2 (hx 16 0x41424344454647480123456789abcdee) K1)
      = some [{ cls := .ok, cause := 0, olen := 15, out := hx 15 0x40610623cced8aa700000000000000 }] := by decide

/-- P4 step 4: PAD_MISMATCH under FULL, and six bytes under RANGE. -/
theorem test_decryptBytes_mismatch : stepResponses State.reset (Cmd.of 0b11#2 (hx 8 0x6946290be6a8ceed) K1)
      = some [{ cls := .paddingError, cause := 0b1000#4, olen := 0, out := [] }]
    ∧ stepResponses (under .range) (Cmd.of 0b11#2 (hx 8 0x6946290be6a8ceed) K1)
      = some [{ cls := .ok, cause := 0, olen := 6, out := hx 6 0x68656c6c6f03 }] := by decide

/-! ### The unit-level functions, one step each -/

/-- Table 2.1: a leading zero byte. -/
theorem test_bytesToInt : returned (.bytesToInt (hx 2 0x00ff)) State.reset = some (.value 255) := by decide

/-- Table 2.1: the first byte is the most significant. -/
theorem test_bytesToInt_order : returned (.bytesToInt [0x01, 0x02, 0x03]) State.reset = some (.value 66051) := by decide

/-- Table 2.1: zero-padded on the left. -/
theorem test_intToBytes : returned (.intToBytes 11259375 8) State.reset
    = some (.bytes [0x00, 0x00, 0x00, 0x00, 0x00, 0xab, 0xcd, 0xef]) := by decide

/-- Table 2.1: never a truncation. -/
theorem test_intToBytes_range : returned (.intToBytes 256 1) State.reset = some .codecRange := by decide

/-- Table 2.2. -/
theorem test_transform : after (.transform 0x0123456789abcdef#64 0x133457799bbcdff1#64) State.reset (·.yr)
    = some 0x1217121e1217121e#64 := by decide

/-- Table 2.2, last row: no carry and no rotation. -/
theorem test_transform_no_carry : after (.transform 0x8000000000000000#64 1#64) State.reset (·.yr)
    = some 0x8000000000000001#64 := by decide

/-- Table 2.3, nine bytes: `NR` and the padded data. -/
theorem test_pad : after (.pad (hx 9 0x414243444546474849)) State.reset (fun t => (t.nr, t.wbuf.bytes))
    = some (7#8, hx 16 0x41424344454647484907070707070707) := by decide

/-- Table 2.3, eight bytes: a whole block of padding. -/
theorem test_pad_aligned : returned (.pad (hx 8 0x4142434445464748)) State.reset
    = some (.bytes (hx 16 0x41424344454647480808080808080808)) := by decide

/-- Table 2.4, last row: FULL refuses a pad of nine, RANGE accepts it. -/
theorem test_unpad_nine : returned (.unpad (hx 16 0x41090909090909090909090909090909)) State.reset
      = some (.failed { cls := .paddingError, cause := 0b0100#4 })
    ∧ returned (.unpad (hx 16 0x41090909090909090909090909090909)) (under .range)
      = some (.bytes (hx 7 0x41090909090909)) := by decide

/-- Table 2.4: NONE trusts the last byte; above the length nothing is left. -/
theorem test_unpad_unchecked : returned (.unpad (hx 8 0x4142434445460302)) (under .unchecked)
      = some (.bytes (hx 6 0x414243444546))
    ∧ returned (.unpad (hx 8 0x4142434445464709)) (under .unchecked) = some (.bytes []) := by decide

/-- P2 step 1: equal blocks stay equal, and the trace's last registers. -/
theorem test_ecbEncrypt : after (.ecbEncrypt (List.replicate 16 0x41) K1) State.reset
      (fun t => (t.obuf.bytes, t.nblk, t.idx, t.xr, t.yr))
    = some (hx 24 0x40620426c8ea8cae40620426c8ea8cae092b4d6f81a3c5e7, 3, 3, 0x0808080808080808#64,
        0x092b4d6f81a3c5e7#64) := by decide

/-- P2: the three steps in the order 2, 0, 1 on three lanes give the same `OBUF`. -/
theorem test_ecbEncrypt_schedule :
    (match runSchedule .wbuf .obuf [(2, 2), (0, 0), (1, 1)]
        { threeLanes with
          keyr := 0x0123456789abcdef#64
          wbuf := Memory.ofBytes (List.replicate 16 0x41 ++ List.replicate 8 0x08) } with
      | .next t => some t.obuf
      | .fault _ => none
      | .refused _ => none)
    = some (Memory.ofBytes (hx 24 0x40620426c8ea8cae40620426c8ea8cae092b4d6f81a3c5e7)) := by decide

/-- Table 2.6: two swapped blocks, n = 72, PAD_RANGE; `WBUF` is the decrypted buffer. -/
theorem test_ecbDecrypt : after (.ecbDecrypt (hx 16 0x486943618fadcbe940610623cced8aa7) K1) State.reset
      (fun t => (t.wbuf.bytes, t.nr, t.ret))
    = some (hx 16 0x494a0606060606064142434445464748, 72#8, .failed { cls := .paddingError, cause := 0b0100#4 }) := by
  decide

/-- 43_ecb_mode.md R118: the short trailing block is not dropped. -/
theorem test_ecbDecrypt_misaligned : returned (.ecbDecrypt (hx 9 0x6946290be6a8ceec00) K1) State.reset
    = some (.failed { cls := .invalidArgument, cause := 0b0010#4 }) := by decide

/-! ### The general pad and the byte spaces -/

/-- Table 2.3, the general `pad(d, bs)`. -/
theorem test_padWith : padWith 4 (hx 3 0x616263) = some (hx 4 0x61626301) ∧ padWith 1 [] = some [0x01]
    ∧ padWith 256 [] = none ∧ padWith 0 [] = none := by decide

/-- A write keeps the rising order; one out of order too (20_memory.md R52). -/
theorem test_memory_order : Memory.writeBytes (Memory.writeBytes [] 8 [0xaa, 0xbb]) 0 [0xcc]
    = [(0, 0xcc), (8, 0xaa), (9, 0xbb)] := by decide

/-! ### Witnesses: for each statement with hypotheses, a state and operands that meet them together -/

/-- The reset core with a command presented. -/
def presented (c : Cmd) : State := { State.reset with todo := [.present c] }

/-- A command with eight bytes of data and of key. -/
def blockCmd (op : BitVec 2) : Cmd := Cmd.of op (hx 8 0x4142434445464748) K1

/-- The core with a command in flight. -/
def inFlight (c : Cmd) : State := State.reset.withCommand c

/-- The core with a command in flight and reset asserted. -/
def inFlightReset (c : Cmd) : State := { inFlight c with todo := [.reset] }

/-- A core whose latch holds a tuple that is no command. -/
def badLatch : State := { inFlight (blockCmd 0b00#2) with klen := 7 }

/-- Does this instruction answer a next state here? -/
def completes (i : Instr) (s : State) : Bool :=
  match exec i s with
  | .next _ => true
  | .fault _ => false
  | .refused _ => false

theorem next_of_completes {i : Instr} {s : State} (h : completes i s = true) : ∃ t, exec i s = .next t := by
  unfold completes at h
  split at h
  · exact ⟨_, by assumption⟩
  · cases h
  · cases h

theorem witness_EveryFormedTupleSelectsOneCommand :
    [0b00#2, 0b01#2, 0b10#2, 0b11#2].all (fun op => (blockCmd op).wf Params.hardware) = true
    ∧ [0b00#2, 0b01#2, 0b10#2, 0b11#2].map (fun op => ((blockCmd op).op.getLsbD 1, (blockCmd op).op.getLsbD 0))
      = [(false, false), (false, true), (true, false), (true, true)] := by decide

theorem witness_DecoderTurnsAwayUnformedTuples :
    (let c := { blockCmd 0b00#2 with klen := 9 }; c.klen ≠ c.key.length)
    ∧ (let c := { blockCmd 0b00#2 with dlen := 7 }; c.klen = c.key.length ∧ c.dlen ≠ c.data.length)
    ∧ (let c := Cmd.of 0b00#2 [] (hx 10 0)
       c.klen = c.key.length ∧ c.dlen = c.data.length ∧ Params.admits bounded.maxKlen c.klen = false)
    ∧ (let c := Cmd.of 0b00#2 (hx 10 0) (hx 9 0)
       c.klen = c.key.length ∧ c.dlen = c.data.length ∧ Params.admits bounded.maxKlen c.klen = true
        ∧ Params.admits bounded.maxDlen c.dlen = false) := by decide

theorem witness_DecodeAndEncodeAgree :
    Instr.wf bounded (.encryptBytes (hx 9 0) (hx 9 0)) = true
    ∧ encode (.encryptBytes (hx 9 0) (hx 9 0)) = some (Cmd.of 0b10#2 (hx 9 0) (hx 9 0))
    ∧ decode bounded (Cmd.of 0b11#2 [] []) = .ok (.decryptBytes [] []) := by decide

theorem witness_WrittenCommandsReadBack : encode (.decryptBytes [] []) = some (Cmd.of 0b11#2 [] []) := by decide

theorem witness_StepRunsTheLatchedCommand :
    ((inFlight (blockCmd 0b00#2)).phase = .busy ∧ (inFlight (blockCmd 0b00#2)).resetAsserted = false
      ∧ decode (inFlight (blockCmd 0b00#2)).params (inFlight (blockCmd 0b00#2)).latched
        = .ok (.encryptBlock (hx 8 0x4142434445464748) K1))
    ∧ (badLatch.phase = .busy ∧ badLatch.resetAsserted = false
      ∧ decode badLatch.params badLatch.latched = .error .keyBytesDiffer) := by decide

theorem witness_IdleCoreAcceptsThePresentedCommand :
    (presented (blockCmd 0b01#2)).phase = .idle
    ∧ (presented (blockCmd 0b01#2)).todo = .present (blockCmd 0b01#2) :: []
    ∧ decode (presented (blockCmd 0b01#2)).params (blockCmd 0b01#2)
      = .ok (.decryptBlock (hx 8 0x4142434445464748) K1) := by decide

theorem witness_BusyCoreAcceptsNothing :
    ((inFlight (blockCmd 0b00#2)).phase = .busy ∧ (inFlight (blockCmd 0b00#2)).resetAsserted = false
      ∧ ∃ t, step (inFlight (blockCmd 0b00#2)) = .next t)
    ∧ ((inFlightReset (blockCmd 0b00#2)).phase = .busy ∧ (inFlightReset (blockCmd 0b00#2)).resetAsserted = true
      ∧ ∃ t, step (inFlightReset (blockCmd 0b00#2)) = .next t) :=
  ⟨⟨rfl, rfl, _, rfl⟩, ⟨rfl, rfl, _, rfl⟩⟩

theorem witness_IdleCoreWaitsForTheHost :
    (State.reset.phase = .idle ∧ State.reset.todo = [])
    ∧ (State.phase { State.reset with todo := [.await] } = .idle
      ∧ State.todo { State.reset with todo := [.await] } = .await :: []) := by decide

theorem witness_ResetDropsTheCommandInFlight :
    (inFlightReset (blockCmd 0b00#2)).todo = .reset :: []
    ∧ (inFlightReset (blockCmd 0b00#2)).phase = .busy := by decide

theorem witness_CommandWhileBusyIsStuck :
    encode (.encryptBlock [] []) = some (Cmd.of 0b00#2 [] []) ∧ (inFlight (blockCmd 0b00#2)).phase = .busy
    ∧ (inFlight (blockCmd 0b00#2)).latched ≠ Cmd.of 0b00#2 [] [] := by decide

theorem witness_BytesToIntReturnsTheBigEndianValue :
    (hx 2 0x00ff).length = ([0x00, 0xff] : List Byte).length
    ∧ bytesToInt (hx 2 0x00ff) = bytesToInt [0x00, 0xff] := by decide

theorem witness_IntToBytesGivesExactlyLBytesOrFails :
    256 ^ 1 ≤ 256 ∧ 255 < 256 ^ 1 ∧ 256 ^ 0 ≤ 1 ∧ 0 < 256 ^ 0 := by decide

theorem witness_CodecRoundTrips : 255 < 256 ^ 1 ∧ 0 < 256 ^ 0 := by decide

theorem witness_BlockValueBitPositions : 8 * 1 + 8 ≤ (hx 16 1).length ∧ 7 < 8 ∧ K1.length = 8 := by decide

theorem witness_TransformWritesTheExclusiveOr : State.reset.xr = 0 ∧ State.reset.keyr = 0 := by decide

theorem witness_TransformLaws :
    transform 5#64 0#64 = 5#64 ∧ transform 5#64 7#64 = transform 5#64 7#64 := by decide

theorem witness_TransformIsByteWise :
    intToBytes (5#64).toNat 8 = some (hx 8 5) ∧ intToBytes (7#64).toNat 8 = some (hx 8 7)
    ∧ intToBytes (transform 5#64 7#64).toNat 8 = some (hx 8 2) := by decide

theorem witness_PadWritesNRAndWBUF :
    8 = 8 - (hx 8 0).length % 8 ∧ (hx 8 0).length % 8 = 0 ∧ 1 = 8 - (hx 7 0).length % 8 ∧ (hx 7 0).length % 8 = 7 := by
  decide

theorem witness_PadProperties :
    8 = 8 - (hx 0 0).length % 8 ∧ 1 = 8 - (hx 7 0).length % 8 ∧ padBytes (hx 7 5) = padBytes (hx 7 5) := by decide

theorem witness_GeneralPadNeedsBlockSize1To255 :
    (1 ≤ 1 ∧ 1 ≤ 255) ∧ (1 ≤ 255 ∧ 255 ≤ 255) ∧ 0 < 1 ∧ 255 < 256 := by decide

/-- The clauses of NONE at their boundaries: 1, the length, one above it, and 0. -/
theorem witness_UnpadUncheckedTrustsTheLastByte :
    (under .unchecked).params.padCheck = .unchecked
    ∧ (hx 8 1).getLast? = some 1#8 ∧ (hx 8 8).getLast? = some 8#8 ∧ (8#8).toNat ≤ (hx 8 8).length
    ∧ (hx 8 9).getLast? = some 9#8 ∧ (hx 8 9).length < (9#8).toNat ∧ (hx 8 0).getLast? = some 0#8 := by decide

/-- The clauses of RANGE at their boundaries: 0, one above the length, 1, the length. -/
theorem witness_UnpadRangeChecksTheLastByte :
    (under .range).params.padCheck = .range
    ∧ (hx 8 0).getLast? = some 0#8 ∧ (hx 9 10).getLast? = some 10#8 ∧ (hx 9 10).length < (10#8).toNat
    ∧ (hx 9 1).getLast? = some 1#8 ∧ (hx 9 9).getLast? = some 9#8 ∧ (9#8).toNat ≤ (hx 9 9).length := by decide

/-- The clauses of FULL at their boundaries: 0, 9, one above a short length; a mismatch with 8 and with 2; no mismatch with
8 and with 1. -/
theorem witness_UnpadFullChecksRangeThenEveryPadByte :
    State.reset.params.padCheck = .full
    ∧ (hx 8 0).getLast? = some 0#8 ∧ (hx 16 9).getLast? = some 9#8 ∧ 8 < (9#8).toNat
    ∧ ((hx 2 3).getLast? = some 3#8 ∧ (hx 2 3).length < (3#8).toNat)
    ∧ ((hx 8 8).getLast? = some 8#8 ∧ ∃ x ∈ (hx 8 8).drop ((hx 8 8).length - 8), x ≠ 8#8)
    ∧ ((hx 8 2).getLast? = some 2#8 ∧ ∃ x ∈ (hx 8 2).drop ((hx 8 2).length - 2), x ≠ 2#8)
    ∧ (let p : List Byte := List.replicate 8 8; p.getLast? = some 8#8 ∧ ∀ x ∈ p.drop (p.length - 8), x = 8#8)
    ∧ ((hx 8 1).getLast? = some 1#8 ∧ ∀ x ∈ (hx 8 1).drop ((hx 8 1).length - 1), x = 1#8) := by decide

theorem witness_WellFormedPadsUnpadAlikeUnderEverySetting :
    (∀ x ∈ (hx 8 1).drop ((hx 8 1).length - 1), x = BitVec.ofNat 8 1)
    ∧ (let p : List Byte := List.replicate 8 8
       8 ≤ p.length ∧ ∀ x ∈ p.drop (p.length - 8), x = BitVec.ofNat 8 8) := by decide

theorem witness_UndefinedUnitCallsAreRefused : K1.length = 8 ∧ (hx 7 0).length ≠ 8 ∧ (hx 9 0).length ≠ 8 := by decide

/-- A state whose `DBUF` holds two blocks. -/
def twoBlocks : State := { State.reset with dbuf := Memory.ofBytes (hx 16 0x10), keyr := 3 }

theorem witness_BlockStepWritesOneBlock :
    twoBlocks.space .dbuf = Memory.ofBytes (hx 16 0x10) ∧ 8 * 1 + 8 ≤ (hx 16 0x10).length := by decide

theorem witness_BlockOrderDoesNotMatter :
    Space.dbuf ≠ .wbuf ∧ twoBlocks.space .dbuf = Memory.ofBytes (hx 16 0x10) ∧ (hx 16 0x10).length = 8 * 2
    ∧ twoBlocks.space .wbuf = [] ∧ (([(1, 1), (0, 0)] : List (Nat × Nat)).map Prod.snd).Perm (List.range 2) := by decide

theorem witness_EcbEncryptTransformsThePaddedBlocks : K1.length = 8 ∧ State.reset.params.nlanes = 1 := by decide

theorem witness_EcbDecryptTransformsThenUnpads : K1.length = 8 ∧ (hx 8 1).length = 8 * (0 + 1)
    ∧ (hx 16 1).length = 8 * (1 + 1) ∧ State.reset.params.nlanes = 1 := by decide

theorem witness_EcbDecryptRejectsMisalignedLengths : K1.length = 8 ∧ (hx 7 1).length % 8 ≠ 0
    ∧ (hx 9 1).length % 8 ≠ 0 := by decide

theorem witness_EcbClosedForm : K1.length = 8 ∧ (hx 8 1).length % 8 = 0 ∧ hx 8 1 ≠ []
    ∧ 7 < (padBytes []).length ∧ 7 < (hx 8 1).length := by decide

theorem witness_EcbKeepsBlockPatterns :
    K1.length = 8 ∧ (∃ t, exec (.ecbEncrypt (hx 8 0) K1) State.reset = .next t) ∧ 1 < (hx 8 0).length / 8 + 1
    ∧ (∃ t, exec (.ecbDecrypt (hx 16 0) K1) State.reset = .next t)
    ∧ (∃ t, exec (.ecbDecrypt (hx 16 1) K1) State.reset = .next t)
    ∧ ((hx 16 0).drop (8 * 0)).take 8 = ((hx 16 1).drop (8 * 0)).take 8
    ∧ ((hx 16 0).drop (8 * 1)).take 8 ≠ ((hx 16 1).drop (8 * 1)).take 8 :=
  ⟨by decide, next_of_completes (by decide), by decide, next_of_completes (by decide), next_of_completes (by decide),
    by decide, by decide⟩

/-- Every command is ready in the idle reset core, and the one in flight is ready in a busy one. -/
theorem witness_ready (c : Cmd) : State.reset.ready c ∧ (inFlight (blockCmd 0b00#2)).ready (blockCmd 0b00#2) :=
  ⟨.inl rfl, .inr (by decide)⟩

/-- Lengths for the clauses of EncryptBlockAnswers and DecryptBlockAnswers: 8, and 7 and 9 beside it. -/
theorem witness_BlockCommandsAnswer : K1.length = 8 ∧ (hx 7 0).length ≠ 8 ∧ (hx 9 0).length ≠ 8 ∧ ([] : List Byte).length ≠ 8
    ∧ State.reset.phase = .idle := by decide

/-- Lengths for the clauses of EncryptBytesAnswers. -/
theorem witness_EncryptBytesAnswers : K1.length = 8 ∧ shortKey.length ≠ 8 ∧ State.reset.phase = .idle := by decide

/-- Lengths for the clauses of DecryptBytesAnswers: 8, 0, 7 and 9. -/
theorem witness_DecryptBytesAnswers :
    K1.length = 8 ∧ shortKey.length ≠ 8 ∧ (hx 8 1 ≠ [] ∧ (hx 8 1).length % 8 = 0) ∧ (hx 0 0 = [] ∧ (hx 0 0).length % 8 = 0)
    ∧ (hx 7 0).length % 8 ≠ 0 ∧ (hx 9 0).length % 8 ≠ 0 ∧ State.reset.phase = .idle := by decide

theorem witness_EveryCommandAnswersExactlyOnce :
    encode (.encryptBlock (hx 8 0x4142434445464748) K1) = some (blockCmd 0b00#2)
    ∧ (presented (blockCmd 0b00#2)).phase = .idle
    ∧ (presented (blockCmd 0b00#2)).todo = .present (blockCmd 0b00#2) :: []
    ∧ decode (presented (blockCmd 0b00#2)).params (blockCmd 0b00#2) = .ok (.encryptBlock (hx 8 0x4142434445464748) K1)
    ∧ ([] : List HostAction).head? ≠ some .reset
    ∧ (presented (blockCmd 0b00#2)).params.padCheck = State.reset.params.padCheck
    ∧ State.reset.params.padCheck ≠ .unchecked := by decide

/-- A response the host gets, as the premise of the statements about responses has it. -/
theorem witness_answers_ok : exec (.encryptBlock K1 K1) State.reset
    = .next (State.reset.answerWith { cls := .ok, cause := 0, olen := 8, out := hx 8 0 }) := by rfl

theorem witness_answers_data_length : exec (.encryptBlock (hx 7 0) K1) State.reset
    = .next (State.reset.answerWith { cls := .invalidArgument, cause := 0b0010#4, olen := 0, out := [] }) := by rfl

theorem witness_answers_pad_range : exec (.decryptBytes K1 K1) State.reset
    = .next (State.reset.answerWith { cls := .paddingError, cause := 0b0100#4, olen := 0, out := [] }) := by rfl

/-- The NONE alternative of the third clause of EveryCommandAnswersExactlyOnce (table 2.6: the decrypted last byte is 01),
in two states that draw different free values. -/
theorem witness_EveryCommandAnswersExactlyOnce_unchecked :
    let i := Instr.decryptBytes (hx 8 0x0123456789abcdee) K1
    let s := under .unchecked
    let u := { under .unchecked with draws := 1 }
    let r : Response := { cls := .ok, cause := 0, olen := 7, out := hx 7 0 }
    encode i = some (Cmd.of 0b11#2 (hx 8 0x0123456789abcdee) K1)
    ∧ s.ready (Cmd.of 0b11#2 (hx 8 0x0123456789abcdee) K1) ∧ u.ready (Cmd.of 0b11#2 (hx 8 0x0123456789abcdee) K1)
    ∧ s.params.padCheck = u.params.padCheck ∧ s.params.padCheck = .unchecked
    ∧ (∀ d key, i = .decryptBytes d key → (d.getLastD 0 ^^^ key.getLastD 0) ≠ 0)
    ∧ exec i s = .next (s.answerWith r) ∧ exec i u = .next (u.answerWith r) := by
  refine ⟨rfl, .inl rfl, .inl rfl, rfl, rfl, ?_, rfl, rfl⟩
  rintro d key ⟨⟩
  decide

theorem witness_SmallStepAgreesWithBigStep :
    encode (.decryptBytes (hx 8 0x4142434445464748) K1) = some (blockCmd 0b11#2) ∧ State.reset.phase = .idle := by decide

theorem witness_EncryptThenDecryptGivesTheDataBack :
    K1.length = 8 ∧ (hx 8 5).length = 8 ∧ State.reset.phase = .idle := by decide

theorem witness_BlockCommandsAreOneFunction :
    State.reset.phase = .idle ∧ K1.length = 8 ∧ (hx 5 1).length % 8 ≠ 0
    ∧ State.reset.Answers (.encryptBlock K1 K1) { cls := .ok, cause := 0, olen := 8, out := hx 8 0 } :=
  ⟨rfl, by decide, by decide, _, witness_answers_ok, rfl, rfl⟩

theorem witness_NothingSurvivesACommand :
    encode (.encryptBlock K1 K1) = some (Cmd.of 0b00#2 K1 K1) ∧ encode (.decryptBytes K1 K1) = some (Cmd.of 0b11#2 K1 K1)
    ∧ State.reset.params = State.params twoBlocks ∧ State.reset.draws = State.draws twoBlocks
    ∧ (∃ t, exec (.encryptBlock K1 K1) State.reset = .next t) ∧ (∃ t, exec (.decryptBytes K1 K1) twoBlocks = .next t)
    ∧ State.phase twoBlocks = .idle :=
  ⟨by decide, by decide, rfl, rfl, next_of_completes (by decide), next_of_completes (by decide), rfl⟩

theorem witness_LengthViolationsReadNoByte :
    encode (.encryptBlock (hx 7 0) K1) = some (Cmd.of 0b00#2 (hx 7 0) K1)
    ∧ encode (.encryptBlock (hx 7 1) K2) = some (Cmd.of 0b00#2 (hx 7 1) K2)
    ∧ (Cmd.of 0b00#2 (hx 7 0) K1).klen = (Cmd.of 0b00#2 (hx 7 1) K2).klen
    ∧ (Cmd.of 0b00#2 (hx 7 0) K1).dlen = (Cmd.of 0b00#2 (hx 7 1) K2).dlen ∧ State.reset.phase = .idle
    ∧ exec (.encryptBlock (hx 7 0) K1) State.reset
      = .next (State.reset.answerWith { cls := .invalidArgument, cause := 0b0010#4, olen := 0, out := [] }) :=
  ⟨rfl, rfl, rfl, rfl, rfl, witness_answers_data_length⟩

theorem witness_ResponsesEachCommandCanProduce :
    encode (.decryptBytes K1 K1) = some (Cmd.of 0b11#2 K1 K1) ∧ State.reset.ready (Cmd.of 0b11#2 K1 K1)
    ∧ exec (.decryptBytes K1 K1) State.reset
      = .next (State.reset.answerWith { cls := .paddingError, cause := 0b0100#4, olen := 0, out := [] }) :=
  ⟨rfl, .inl rfl, witness_answers_pad_range⟩

theorem witness_BlockDatapathWritesItsRegisters :
    (inFlight (blockCmd 0b00#2)).kbuf = Memory.ofBytes K1
    ∧ (inFlight (blockCmd 0b00#2)).dbuf = Memory.ofBytes (hx 8 0x4142434445464748) ∧ K1.length = 8
    ∧ (hx 8 0x4142434445464748).length = 8 := by decide

/-- The second clause needs an `ecbDecrypt` that returns bytes under FULL. -/
theorem witness_EcbLengthsAndRoundTrip :
    K1.length = 8 ∧ State.reset.params.padCheck = .full
    ∧ returned (.ecbDecrypt (hx 8 0x6946290be6a8ceec) K1) State.reset = some (.bytes (hx 5 0x68656c6c6f)) := by decide

theorem witness_CiphertextRevealsTheKey :
    (hx 8 5).length = 8 ∧ K1.length = 8 ∧ ([] : List Byte).length % 8 = 0 ∧ (hx 8 5).length % 8 = 0
    ∧ State.reset.phase = .idle := by decide

theorem witness_ParametersNeverChange :
    (∃ t, exec (.pad []) State.reset = .next t) ∧ (∃ t, step (inFlight (blockCmd 0b10#2)) = .next t) :=
  ⟨next_of_completes (by decide), _, rfl⟩

theorem witness_UnitCallsLeaveTheHostAlone :
    encode (.unpad K1) = none ∧ (∃ t, exec (.unpad K1) State.reset = .next t)
    ∧ (∀ x k, Instr.unpad K1 ≠ .transform x k) ∧ (∀ d k, Instr.unpad K1 ≠ .ecbEncrypt d k)
    ∧ (∀ d k, Instr.unpad K1 ≠ .ecbDecrypt d k) :=
  ⟨rfl, next_of_completes (by decide), by simp, by simp, by simp⟩

/-- Inside the space and at its end. -/
theorem witness_MemWriteWritesItsBytesOnly :
    twoBlocks.space .dbuf = Memory.ofBytes (hx 16 0x10) ∧ 0 ≤ (hx 16 0x10).length ∧ 16 ≤ (hx 16 0x10).length := by decide

/-- The last byte, and one past it. -/
theorem witness_MemReadGivesTheBytesInOrder :
    twoBlocks.space .dbuf = Memory.ofBytes (hx 16 0x10) ∧ 15 + 1 ≤ (hx 16 0x10).length
    ∧ (hx 16 0x10).length < 16 + 1 ∧ 0 < 1 := by decide

/-- The reset core with its first command in flight meets the invariant and steps. -/
theorem witness_EveryStepKeepsTheInvariant :
    (inFlight (blockCmd 0b11#2)).Inv ∧ ∃ t, step (inFlight (blockCmd 0b11#2)) = .next t := by
  refine ⟨⟨rfl, rfl, rfl, rfl, rfl, rfl, rfl, rfl, rfl, fun _ => rfl, ?_⟩, _, rfl⟩
  intro r hr
  cases hr

/-- Both endings: a step, and a presented tuple that is no command. -/
theorem witness_NoStepFaults :
    (inFlight (blockCmd 0b11#2)).Inv
    ∧ decode Params.hardware { blockCmd 0b00#2 with klen := 9 } = .error .keyBytesDiffer :=
  ⟨witness_EveryStepKeepsTheInvariant.1, by decide⟩

end Sys2Proof.Tests
end

section
/-! Proofs about the core's state (10_state.md): what a command does from acceptance to its response, what survives it,
and what no instruction and no step changes. -/

namespace Sys2Proof.Machine

open Host (Outcome)

/-! ### The length checks -/

/-- No length flag is raised exactly when neither length is refused (60_exceptions.md R157). -/
theorem lengthCause_eq_zero_iff (keyBad dataBad : Bool) :
    lengthCause keyBad dataBad = 0 ↔ keyBad = false ∧ dataBad = false := by
  cases keyBad <;> cases dataBad <;> decide

theorem keyLengthBad_eq_false_iff (n : Nat) : keyLengthBad n = false ↔ n = 8 :=
  decide_eq_false_iff_not.trans not_not

theorem blockLengthBad_eq_false_iff (n : Nat) : blockLengthBad n = false ↔ n = 8 :=
  decide_eq_false_iff_not.trans not_not

theorem cipherLengthBad_eq_false_iff (n : Nat) : cipherLengthBad n = false ↔ n ≠ 0 ∧ n % 8 = 0 := by
  rw [cipherLengthBad, Bool.or_eq_false_iff, decide_eq_false_iff_not, decide_eq_false_iff_not, not_not, blockSize]

/-! ### The end of a command: the response, and a core that depends on no earlier state -/

/-- A response leaves the same state whether or not the command was accepted just before. -/
@[simp] theorem answerWith_accept (s : State) (c : Cmd) (r : Response) :
    (s.accept c).answerWith r = s.answerWith r :=
  answerWith_eq_of_same r rfl rfl rfl rfl

/-- `respond` with the status OK and `out` in `OBUF` gives the OK response, and the state any state with the same
parameters, host and free values is left in. -/
theorem respond_eq_okResponse {s t : State} {out : List Byte} (hp : t.params = s.params) (ht : t.todo = s.todo)
    (hr : t.responses = s.responses) (hd : t.draws = s.draws) (hst : t.st = statusOk)
    (ho : t.obuf = Memory.ofBytes out) : respond t = s.answerWith (okResponse out) := by
  have hrsp : t.rsp = okResponse out := by simp [State.rsp, okResponse, hst, ho, statusOk]
  rw [respond_eq, hrsp]
  exact answerWith_eq_of_same _ hp ht hr hd

/-- `raise` likewise gives the error response. -/
theorem raise_eq_errorResponse {s t : State} (st : Status) (hp : t.params = s.params) (ht : t.todo = s.todo)
    (hr : t.responses = s.responses) (hd : t.draws = s.draws) : raise st t = s.answerWith (errorResponse st) :=
  (raise_eq st t).trans (answerWith_eq_of_same _ hp ht hr hd)

/-- What is left once the working state is released depends on the parameters, the phase and the free values alone. -/
theorem release_sameCore {s t : State} (hp : s.params = t.params) (hphase : s.phase = t.phase)
    (hd : s.draws = t.draws) : s.release.SameCore t.release where
  params := hp
  phase := hphase
  latch := by simp [State.release, hd]
  spaces := fun S => by cases S <;> simp [State.release, hd]
  keyr := by simp [State.release, hd]
  lane0 := by simp [State.release, hd]
  lanes := by simp [State.release, hd, hp]
  nr := by simp [State.release, hd]
  sequencing := by simp [State.release, hd]
  st := by simp [State.release, hd]
  ret := rfl

/-! ### The commands after acceptance -/

/-- The state holds a command's operands where acceptance puts them, and a cleared status (10_state.md R23, R26). -/
structure State.HoldsOperands (s : State) (data key : List Byte) : Prop where
  kbuf : s.kbuf = Memory.ofBytes key
  dbuf : s.dbuf = Memory.ofBytes data
  klen : s.klen = key.length
  dlen : s.dlen = data.length
  st : s.st = statusOk

/-- Acceptance puts the operands there. -/
theorem accept_holdsOperands (s : State) (op : BitVec 2) (data key : List Byte) :
    (s.accept (Cmd.of op data key)).HoldsOperands data key :=
  ⟨rfl, rfl, rfl, rfl, rfl⟩

/-- The datapath of a block command: `KEYR`, `XR`, `YR` and `OBUF`, and nothing else (44_commands.md R131). -/
theorem blockDatapath_eq {s : State} {d k : List Byte} (hk : s.kbuf = Memory.ofBytes k) (hkl : k.length = 8)
    (hd : s.dbuf = Memory.ofBytes d) (hdl : d.length = 8) :
    blockDatapath s = .next
      { s with
        keyr := toWord k, xr := toWord d, yr := transform (toWord d) (toWord k)
        obuf := Memory.ofBytes (blockBytes (toWord k) d) } := by
  have hstep := blockStepOn_eq (s := { s with keyr := toWord k, obuf := [] }) (src := .dbuf) (dst := .obuf) hd 0 0
    (by omega)
  have hblock : (d.drop (8 * 0)).take 8 = d := by simp [List.take_of_length_le, hdl]
  rw [hblock] at hstep
  rw [blockDatapath, loadKey_eq hk hkl, andThen_next, hstep]
  simp [memWrite, State.setXR, State.setYR]

/-- A block command gives the big-step response (44_commands.md R131, R132). -/
theorem blockCommand_eq {s : State} {d k : List Byte} (h : s.HoldsOperands d k) :
    blockCommand s = .next (s.answerWith (blockAnswer d k)) := by
  simp only [blockCommand, blockAnswer, h.klen, h.dlen]
  by_cases hok : lengthCause (keyLengthBad k.length) (blockLengthBad d.length) = 0
  · obtain ⟨hk, hd⟩ : k.length = 8 ∧ d.length = 8 := by
      simpa only [lengthCause_eq_zero_iff, keyLengthBad_eq_false_iff, blockLengthBad_eq_false_iff] using hok
    simp only [hok, ne_eq, not_true_eq_false, if_false, blockDatapath_eq h.kbuf hk h.dbuf hd, andThen_next,
      Outcome.next.injEq]
    exact respond_eq_okResponse rfl rfl rfl rfl h.st rfl
  · simp only [ne_eq, hok, not_false_eq_true, if_true, raise_eq]

/-- `encryptBytes` gives the big-step response (44_commands.md R133). -/
theorem encryptBytesCommand_eq {s : State} {d k : List Byte} (h : s.HoldsOperands d k) :
    encryptBytesCommand s = .next (s.answerWith (encryptBytesAnswer d k)) := by
  simp only [encryptBytesCommand, encryptBytesAnswer, h.klen]
  by_cases hok : lengthCause (keyLengthBad k.length) false = 0
  · have hk : k.length = 8 := by
      simpa only [lengthCause_eq_zero_iff, keyLengthBad_eq_false_iff, and_true] using hok
    obtain ⟨t, hrun, -, hobuf, hframe, -⟩ := ecbEncryptUnit_next h.kbuf hk h.dbuf
    have hblocks : (padBytes d).length / blockSize = d.length / 8 + 1 := by
      rw [padBytes_length_blocks, blockSize]; omega
    simp only [hok, ne_eq, not_true_eq_false, if_false, hrun, andThen_next, hblocks]
    rw [respond_eq_okResponse hframe.params hframe.todo hframe.responses hframe.draws (hframe.st.trans h.st) hobuf]
    rfl
  · simp only [ne_eq, hok, not_false_eq_true, if_true, raise_eq]

/-- `decryptBytes` gives the big-step response (44_commands.md R134). -/
theorem decryptBytesCommand_eq {s : State} {c k : List Byte} (h : s.HoldsOperands c k) :
    decryptBytesCommand s = .next
      (s.answerWith (decryptBytesAnswer s.params.padCheck (Config.unpadZeroKeepsAll s.draws) c k)) := by
  simp only [decryptBytesCommand, decryptBytesAnswer, h.klen, h.dlen]
  by_cases hok : lengthCause (keyLengthBad k.length) (cipherLengthBad c.length) = 0
  · obtain ⟨hk, hpos, hmod⟩ : k.length = 8 ∧ c.length ≠ 0 ∧ c.length % 8 = 0 := by
      simpa only [lengthCause_eq_zero_iff, keyLengthBad_eq_false_iff, cipherLengthBad_eq_false_iff] using hok
    obtain ⟨t, hrun, -, hwbuf, hframe, -⟩ := ecbDecryptUnit_blocks h.kbuf hk h.dbuf hmod
    have hne : ecbBytes (toWord k) (c.length / 8) c ≠ [] := List.ne_nil_of_length_pos (by simp; omega)
    simp only [hok, ne_eq, not_true_eq_false, if_false, hrun, unpadUnit_eq hwbuf hne, andThen_next, hframe.params,
      hframe.draws, blockSize]
    cases unpadBytes s.params.padCheck (Config.unpadZeroKeepsAll s.draws) (ecbBytes (toWord k) (c.length / 8) c)
        ((ecbBytes (toWord k) (c.length / 8) c).getLastD 0).toNat with
    | ok d =>
      simp only [Outcome.next.injEq]
      exact respond_eq_okResponse rfl hframe.todo hframe.responses rfl (hframe.st.trans h.st) rfl
    | error st =>
      simp only [Outcome.next.injEq]
      exact raise_eq_errorResponse st rfl hframe.todo hframe.responses rfl
  · simp only [ne_eq, hok, not_false_eq_true, if_true, raise_eq]

/-! ### Commands as instructions -/

/-- What the decoder selects from a tuple encodes back as that tuple (30_encoding.md R61). -/
theorem encode_of_decode {p : Params} {c : Cmd} {i : Instr} (h : decode p c = .ok i) : encode i = some c := by
  obtain ⟨hwf, rfl⟩ := (decode_ok_iff p c i).1 h
  obtain ⟨op, klen, dlen, key, data⟩ := c
  simp only [Cmd.wf, Bool.and_eq_true, decide_eq_true_eq] at hwf
  obtain ⟨⟨⟨rfl, rfl⟩, -⟩, -⟩ := hwf
  rcases op_cases op with rfl | rfl | rfl | rfl <;> simp [encode, Cmd.of]

/-- A command that can run, and whose part after acceptance answers `r`, answers `r` from the state it is given to. -/
theorem enter_then_answer {c : Cmd} {s : State} {r : Response} {body : State → Outcome State Fault Refusal}
    (hs : s.ready c) (hbody : body (s.accept c) = .next ((s.accept c).answerWith r)) :
    andThen (enter c s) body = .next (s.answerWith r) := by
  rw [enter_ready hs, andThen_next, hbody, answerWith_accept]

/-- A command that can run ends with the big-step response (10_state.md R32). -/
theorem exec_of_ready {i : Instr} {c : Cmd} {s : State} (he : encode i = some c) (hs : s.ready c) :
    ∃ r, answer s.params.padCheck (Config.unpadZeroKeepsAll s.draws) i = some r ∧
      exec i s = .next (s.answerWith r) := by
  cases i with
  | encryptBlock d k =>
    cases he
    exact ⟨_, rfl, enter_then_answer hs (blockCommand_eq (accept_holdsOperands s _ d k))⟩
  | decryptBlock d k =>
    cases he
    exact ⟨_, rfl, enter_then_answer hs (blockCommand_eq (accept_holdsOperands s _ d k))⟩
  | encryptBytes d k =>
    cases he
    exact ⟨_, rfl, enter_then_answer hs (encryptBytesCommand_eq (accept_holdsOperands s _ d k))⟩
  | decryptBytes d k =>
    cases he
    exact ⟨_, rfl, enter_then_answer hs (decryptBytesCommand_eq (accept_holdsOperands s _ d k))⟩
  | bytesToInt | intToBytes | transform | pad | unpad | ecbEncrypt | ecbDecrypt => cases he

/-- A command that cannot run has no step (93_implementation_defined.md U11). -/
theorem exec_of_not_ready {i : Instr} {c : Cmd} {s : State} (he : encode i = some c) (hs : ¬ s.ready c) :
    exec i s = .fault .commandWhileBusy := by
  cases i with
  | encryptBlock d k => cases he; rw [exec, execEncryptBlock, enter_not_ready hs, andThen_fault]
  | decryptBlock d k => cases he; rw [exec, execDecryptBlock, enter_not_ready hs, andThen_fault]
  | encryptBytes d k => cases he; rw [exec, execEncryptBytes, enter_not_ready hs, andThen_fault]
  | decryptBytes d k => cases he; rw [exec, execDecryptBytes, enter_not_ready hs, andThen_fault]
  | bytesToInt | intToBytes | transform | pad | unpad | ecbEncrypt | ecbDecrypt => cases he

/-- A command that answers a next state answers the state after some response. -/
theorem exec_command_next {i : Instr} {c : Cmd} {s t : State} (he : encode i = some c) (h : exec i s = .next t) :
    ∃ r, t = s.answerWith r := by
  by_cases hs : s.ready c
  · obtain ⟨r, -, hr⟩ := exec_of_ready he hs
    exact ⟨r, Outcome.next.inj (h.symm.trans hr)⟩
  · rw [exec_of_not_ready he hs] at h
    cases h

/-! ### The unit-level functions and the parameters -/

theorem execIntToBytes_params {v L : Nat} {s t : State} (h : execIntToBytes v L s = .next t) : t.params = s.params := by
  unfold execIntToBytes at h
  split at h <;> cases h <;> rfl

theorem execPad_params {d : List Byte} {s t : State} (h : execPad d s = .next t) : t.params = s.params := by
  rw [execPad, padUnit_eq (d := d) rfl] at h
  cases h
  rfl

/-- `unpad` writes no parameter; on the empty sequence it answers no state (42_padding.md R109). -/
theorem unpadUnit_params {p : List Byte} {s : State} {r : State × Option Status} (hp : s.wbuf = Memory.ofBytes p)
    (h : unpadUnit s = .next r) : r.1.params = s.params := by
  by_cases hne : p = []
  · simp [unpadUnit, hp, hne, Memory.size] at h
  · rw [unpadUnit_eq hp hne] at h
    cases h
    split <;> rfl

theorem execUnpad_params {p : List Byte} {s t : State} (h : execUnpad p s = .next t) : t.params = s.params := by
  obtain ⟨r, hr, ht⟩ := andThen_eq_next h
  cases ht
  exact unpadUnit_params (s := stageWork p s) (p := p) rfl hr

theorem execEcbEncrypt_params {d k : List Byte} {s t : State} (h : execEcbEncrypt d k s = .next t) :
    t.params = s.params := by
  unfold execEcbEncrypt at h
  split at h
  · rename_i hk
    obtain ⟨u, hu, -, -, hframe, -⟩ := ecbEncryptUnit_next (s := stageKey k (stageData d s)) rfl hk rfl
    rw [hu] at h
    cases h
    exact hframe.params
  · cases h

theorem execEcbDecrypt_params {c k : List Byte} {s t : State} (h : execEcbDecrypt c k s = .next t) :
    t.params = s.params := by
  unfold execEcbDecrypt at h
  split at h
  · rename_i hk
    obtain ⟨r, hr, ht⟩ := andThen_eq_next h
    cases ht
    by_cases hc : c.length % 8 = 0
    · obtain ⟨u, hu, -, hwbuf, hframe, -⟩ :=
        ecbDecryptUnit_blocks (s := stageKey k (stageData c s)) rfl hk rfl hc
      exact (unpadUnit_params hwbuf (hu.symm.trans hr)).trans hframe.params
    · rw [ecbDecryptUnit_misaligned (by simpa [stageKey, stageData, blockSize] using hc)] at hr
      cases hr
      rfl
  · cases h

/-- No instruction writes a static parameter (10_state.md R27). -/
theorem exec_params {i : Instr} {s t : State} (h : exec i s = .next t) : t.params = s.params := by
  have hcommand : ∀ {c}, encode i = some c → t.params = s.params := fun he => by
    obtain ⟨r, rfl⟩ := exec_command_next he h
    rfl
  cases i with
  | encryptBlock d k => exact hcommand rfl
  | decryptBlock d k => exact hcommand rfl
  | encryptBytes d k => exact hcommand rfl
  | decryptBytes d k => exact hcommand rfl
  | bytesToInt b => cases h; rfl
  | intToBytes v L => exact execIntToBytes_params h
  | transform x k => cases h; rfl
  | pad d => exact execPad_params h
  | unpad p => exact execUnpad_params h
  | ecbEncrypt d k => exact execEcbEncrypt_params h
  | ecbDecrypt c k => exact execEcbDecrypt_params h

/-- No step writes a static parameter (10_state.md R27). -/
theorem step_params {s t : State} (h : step s = .next t) : t.params = s.params := by
  rcases step_cases h with ⟨-, hhost⟩ | ⟨-, -, rfl⟩ | ⟨-, -, i, -, hexec⟩
  · rcases hostStep_cases hhost with ⟨-, rfl⟩ | ⟨rest, -, rfl⟩ | ⟨-, rfl⟩ | ⟨c, rest, i, -, -, rfl⟩ <;> rfl
  · rfl
  · exact exec_params hexec

/-! ### What a step is, by phase -/

/-- A step of an idle core is the host's (10_state.md R22). -/
theorem step_of_idle {s : State} (h : s.phase = .idle) : step s = hostStep s := by
  simp only [step, h]

/-- The host presents a formed command: acceptance, and the action is done with (10_state.md R22). -/
theorem hostStep_present {s : State} {c : Cmd} {rest : List HostAction} {i : Instr} (ht : s.todo = .present c :: rest)
    (hd : decode s.params c = .ok i) : hostStep s = .next (State.accept { s with todo := rest } c) := by
  simp only [hostStep, ht, hd]

/-- A step of a busy core runs what the latch decodes to, where no reset is asserted (30_encoding.md R72). -/
theorem step_of_latched_command {s : State} {i : Instr} (hp : s.phase = .busy) (hr : s.resetAsserted = false)
    (hd : decode s.params s.latched = .ok i) : step s = exec i s := by
  simp [step, hp, hr, hd]

/-- A latch that holds no command is refused by name (log 17). -/
theorem step_of_bad_latch {s : State} {e : DecodeError} (hp : s.phase = .busy) (hr : s.resetAsserted = false)
    (hd : decode s.params s.latched = .error e) : step s = .refused (.notACommand e) := by
  simp [step, hp, hr, hd]

/-! ### The statements -/

/-- Settles O8: a busy step is reset or the latched command, and `answerWith` says what the host sees of the latter. -/
theorem busyCoreAcceptsNothing : Obligations.BusyCoreAcceptsNothing := by
  intro s t hbusy h
  rcases step_cases h with ⟨hidle, -⟩ | ⟨-, hreset, rfl⟩ | ⟨-, hreset, i, hdecode, hexec⟩
  · rw [hbusy] at hidle
    cases hidle
  · exact ⟨rfl, by simp [hreset], fun _ => ⟨rfl, rfl⟩⟩
  · obtain ⟨r, rfl⟩ := exec_command_next (encode_of_decode hdecode) hexec
    exact ⟨rfl, fun _ => ⟨rfl, r, rfl⟩, by simp [hreset]⟩

/-- Settles O42, command by command through the lemma about each after acceptance. -/
theorem smallStepAgreesWithBigStep : Obligations.SmallStepAgreesWithBigStep :=
  fun _ _ _ he hs => exec_of_ready he hs

/-- Settles O45: every command ends in `answerWith`, so in a released core, and its response is the big-step one, which
reads nothing of the state but the parameters and the draw. -/
theorem nothingSurvivesACommand : Obligations.NothingSurvivesACommand := by
  refine ⟨fun i j c e s u t v hi hj hp hd ht hv => ?_, fun i c s u he hs hu hp hd => ?_⟩
  · obtain ⟨r, rfl⟩ := exec_command_next hi ht
    obtain ⟨q, rfl⟩ := exec_command_next hj hv
    exact ⟨release_sameCore hp rfl hd, congrArg (· + 1) hd, release_sameCore rfl rfl rfl⟩
  · obtain ⟨r, hr, hexec⟩ := exec_of_ready he hs
    obtain ⟨q, hq, hexec'⟩ := exec_of_ready he hu
    rw [← hp, ← hd, hr] at hq
    cases hq
    exact ⟨r, hexec, hexec'⟩

/-- Settles O52. -/
theorem parametersNeverChange : Obligations.ParametersNeverChange :=
  ⟨fun _ _ _ h => exec_params h, fun _ _ h => step_params h⟩

/-- Settles O6, by the two answers of the decoder on the latch. -/
theorem stepRunsTheLatchedCommand : Obligations.StepRunsTheLatchedCommand :=
  fun _ hp hr => ⟨fun _ hd => step_of_latched_command hp hr hd, fun _ hd => step_of_bad_latch hp hr hd⟩

/-- Settles O7: the idle step is the host's, which presents a formed command, and acceptance latches it. -/
theorem idleCoreAcceptsThePresentedCommand : Obligations.IdleCoreAcceptsThePresentedCommand := by
  intro s c rest i hidle htodo hdecode
  have hstep := (step_of_idle hidle).trans (hostStep_present htodo hdecode)
  exact ⟨_, hstep, latched_accept _ c, rfl⟩

/-- Settles O12: a busy core whose latch holds another command is not ready for this one. -/
theorem commandWhileBusyIsStuck : Obligations.CommandWhileBusyIsStuck := by
  intro s i c he hbusy hlatch
  exact exec_of_not_ready he (by simp [State.ready, hbusy, hlatch])

/-- Settles O57: the four spaces are empty, there is one lane, the core is idle and has given no response. -/
theorem resetMeetsTheInvariant : Obligations.ResetMeetsTheInvariant where
  kbuf_wf := rfl
  dbuf_wf := rfl
  wbuf_wf := rfl
  obuf_wf := rfl
  kbuf_dense := rfl
  dbuf_dense := rfl
  wbuf_dense := rfl
  obuf_dense := rfl
  lane_registers := rfl
  latch_formed := nofun
  responses_legal := nofun

end Sys2Proof.Machine
end

section
/-! Proofs about the byte spaces (20_memory.md): the two access primitives, the bit positions of a block's bytes, and the
invariant of the state that every step keeps. -/

namespace Sys2Proof.Machine

open Host (Outcome)

/-! ### The access primitives on a space that is a byte sequence -/

/-- A non-empty read that goes past the end stops at the first address beyond the sequence (20_memory.md R40, log 10). -/
theorem readBytes_ofBytes_beyond (l : List Byte) (a n : Nat) (h : l.length < a + n) (hn : 0 < n) :
    (Memory.ofBytes l).readBytes a n = .error (max a l.length) := by
  induction n generalizing a with
  | zero => cases hn
  | succ n ih =>
    by_cases ha : a < l.length
    · have hrest := ih (a + 1) (by omega) (by omega)
      have hmax : max (a + 1) l.length = max a l.length := by omega
      simp only [Memory.readBytes, readByte_ofBytes, List.getElem?_eq_getElem ha, hrest, hmax]
    · have hmax : max a l.length = a := by omega
      simp only [Memory.readBytes, readByte_ofBytes, List.getElem?_eq_none (Nat.le_of_not_lt ha), hmax]

/-- `memRead` past the end of a space that is a byte sequence. -/
theorem memRead_ofBytes_beyond {s : State} {S : Space} {l : List Byte} (hs : s.space S = Memory.ofBytes l) {a n : Nat}
    (h : l.length < a + n) (hn : 0 < n) : memRead S a n s = .fault (.addressBeyondSpace S (max a l.length)) := by
  simp only [memRead, hs, readBytes_ofBytes_beyond l a n h hn]

/-- A write inside or at the end of a byte sequence extends it by what lies beyond its end (20_memory.md R45). -/
theorem size_writeBytes_ofBytes (l v : List Byte) (a : Nat) (h : a ≤ l.length) :
    ((Memory.ofBytes l).writeBytes a v).size = max l.length (a + v.length) := by
  rw [writeBytes_ofBytes l v a h, size_ofBytes]
  simp only [List.length_append, List.length_take, List.length_drop]
  omega

/-! ### The 64-bit value of a byte sequence -/

/-- The value of a byte sequence fits its bytes (40_codec.md R80). -/
theorem bytesToInt_lt (b : List Byte) : bytesToInt b < 256 ^ b.length := by
  induction b using List.reverseRecOn with
  | nil => decide
  | append_singleton b x ih =>
    have hx : x.toNat < 256 := x.isLt
    rw [bytesToInt_append_singleton, List.length_append, List.length_singleton, pow_succ]
    omega

/-- Eight bytes fit the 64-bit register (40_codec.md R83). -/
theorem toNat_toWord {b : List Byte} (h : b.length = 8) : (toWord b).toNat = bytesToInt b := by
  have hlt := bytesToInt_lt b
  rw [h] at hlt
  exact Nat.mod_eq_of_lt hlt

/-- One more byte shifts the 64-bit value left by 8 and takes the low eight bits (40_codec.md R84). -/
theorem toWord_append_singleton (b : List Byte) (x : Byte) :
    toWord (b ++ [x]) = (toWord b <<< 8) ||| x.setWidth 64 := by
  have hdisjoint : (toWord b <<< 8) &&& x.setWidth 64 = 0#64 := by
    ext i hi
    by_cases h8 : i < 8
    · simp [h8]
    · simp [h8, BitVec.getLsbD_of_ge x i (Nat.le_of_not_lt h8)]
  rw [← BitVec.add_eq_or_of_and_eq_zero _ _ hdisjoint]
  apply BitVec.eq_of_toNat_eq
  have hx : x.toNat < 256 := x.isLt
  simp [toWord, bytesToInt_append_singleton, Nat.shiftLeft_eq]

/-- The shift-and-or accumulator computes the 64-bit value (40_codec.md R84). -/
theorem toWord_eq_foldl (b : List Byte) :
    toWord b = b.foldl (fun (v : Word) (x : Byte) => (v <<< 8) ||| x.setWidth 64) 0 := by
  induction b using List.reverseRecOn with
  | nil => rfl
  | append_singleton b x ih => rw [toWord_append_singleton, List.foldl_append, ← ih]; rfl

/-- One more byte moves the eight bits at `k` up by eight (40_codec.md R84). -/
theorem extractLsb'_toWord_append_singleton (b : List Byte) (y : Byte) {k : Nat} (hk : k + 16 ≤ 64) :
    (toWord (b ++ [y])).extractLsb' (k + 8) 8 = (toWord b).extractLsb' k 8 := by
  rw [toWord_append_singleton]
  ext i hi
  have hhigh : 8 ≤ k + 8 + i := by omega
  have htop : k + 8 + i < 64 := by omega
  have hlow : k + i < 64 := by omega
  have hsub : k + 8 + i - 8 = k + i := by omega
  simp [htop, hlow, Nat.not_lt.2 hhigh, hsub, BitVec.getLsbD_of_ge y _ hhigh]

/-- A byte with fewer than eight bytes after it stands that many bytes above bit 0 (20_memory.md R43). -/
theorem extractLsb'_toWord (b : List Byte) (x : Byte) (c : List Byte) (hc : c.length < 8) :
    (toWord (b ++ x :: c)).extractLsb' (8 * c.length) 8 = x := by
  induction c using List.reverseRecOn with
  | nil =>
    rw [toWord_append_singleton]
    ext i hi
    have h64 : i < 64 := by omega
    simp [hi, h64]
  | append_singleton c y ih =>
    rw [List.length_append, List.length_singleton] at hc ⊢
    rw [Nat.mul_add_one, ← List.cons_append, ← List.append_assoc,
      extractLsb'_toWord_append_singleton _ y (by omega), ih (by omega)]

/-- Byte `j` of eight is bits 63 - 8j down to 56 - 8j of their value (20_memory.md R43). -/
theorem extractLsb'_toWord_getElem {b : List Byte} (h : b.length = 8) {j : Nat} (hj : j < b.length) :
    (toWord b).extractLsb' (56 - 8 * j) 8 = b[j] := by
  have hsplit : b = b.take j ++ b[j] :: b.drop (j + 1) := by simp
  have hpos : 56 - 8 * j = 8 * (b.drop (j + 1)).length := by rw [List.length_drop]; omega
  have hx := extractLsb'_toWord (b.take j) b[j] (b.drop (j + 1)) (by rw [List.length_drop]; omega)
  rwa [← hsplit, ← hpos] at hx

/-! ### Legal responses -/

/-- The length flags are a legal cause of `INVALID_ARGUMENT` where one is raised (60_exceptions.md R150). -/
theorem legalStatus_invalidArgument {keyBad dataBad : Bool} (h : lengthCause keyBad dataBad ≠ 0) :
    legalStatus .invalidArgument (lengthCause keyBad dataBad) := by
  cases keyBad <;> cases dataBad
  · exact absurd rfl h
  all_goals exact .inr (.inl ⟨rfl, by decide⟩)

/-- A refused pad has one of the two pad causes (60_exceptions.md R150, R153). -/
theorem unpadBytes_error {check : PadCheck} {keepAll : Bool} {p : List Byte} {n : Nat} {st : Status}
    (h : unpadBytes check keepAll p n = .error st) :
    st = paddingError causePadRange ∨ st = paddingError causePadMismatch := by
  cases check with
  | unchecked => cases h
  | range =>
    simp only [unpadBytes] at h
    split at h
    · exact .inl (Except.error.inj h).symm
    · cases h
  | full =>
    simp only [unpadBytes] at h
    split at h
    · exact .inl (Except.error.inj h).symm
    · split at h
      · cases h
      · exact .inr (Except.error.inj h).symm

theorem legalResponse_okResponse (out : List Byte) : legalResponse (okResponse out) :=
  ⟨.inl ⟨rfl, rfl⟩, rfl, fun h => absurd rfl h⟩

theorem legalResponse_errorResponse {st : Status} (h : legalStatus st.cls st.cause) : legalResponse (errorResponse st) :=
  ⟨h, rfl, fun _ => rfl⟩

theorem legalResponse_blockAnswer (d k : List Byte) : legalResponse (blockAnswer d k) := by
  simp only [blockAnswer]
  split
  · rename_i hcause
    exact legalResponse_errorResponse (legalStatus_invalidArgument hcause)
  · exact legalResponse_okResponse _

theorem legalResponse_encryptBytesAnswer (d k : List Byte) : legalResponse (encryptBytesAnswer d k) := by
  simp only [encryptBytesAnswer]
  split
  · rename_i hcause
    exact legalResponse_errorResponse (legalStatus_invalidArgument hcause)
  · exact legalResponse_okResponse _

theorem legalResponse_decryptBytesAnswer (check : PadCheck) (keepAll : Bool) (c k : List Byte) :
    legalResponse (decryptBytesAnswer check keepAll c k) := by
  simp only [decryptBytesAnswer]
  split
  · rename_i hcause
    exact legalResponse_errorResponse (legalStatus_invalidArgument hcause)
  · split
    · exact legalResponse_okResponse _
    · rename_i st hst
      refine legalResponse_errorResponse (.inr (.inr ?_))
      rcases unpadBytes_error hst with rfl | rfl
      · exact ⟨rfl, .inl rfl⟩
      · exact ⟨rfl, .inr rfl⟩

/-- Every response a command can produce is legal (60_exceptions.md R150, 30_encoding.md R64). -/
theorem legalResponse_of_answer {check : PadCheck} {keepAll : Bool} {i : Instr} {r : Response}
    (h : answer check keepAll i = some r) : legalResponse r := by
  cases i with
  | encryptBlock d k => cases h; exact legalResponse_blockAnswer d k
  | decryptBlock d k => cases h; exact legalResponse_blockAnswer d k
  | encryptBytes d k => cases h; exact legalResponse_encryptBytesAnswer d k
  | decryptBytes d k => cases h; exact legalResponse_decryptBytesAnswer check keepAll d k
  | bytesToInt | intToBytes | transform | pad | unpad | ecbEncrypt | ecbDecrypt => cases h

/-! ### The invariant, one lemma per thing a step can do -/

/-- The space of a byte sequence has no gap. -/
@[simp] theorem ofBytes_dense (l : List Byte) : (Memory.ofBytes l).dense := by
  rw [Memory.dense, bytes_ofBytes]

/-- An idle core whose working state is released meets the invariant once the responses given are legal: every space is
then some byte sequence, and every lane has its registers (10_state.md R31). -/
theorem release_inv {s : State} (hphase : s.phase = .idle) (hr : ∀ r ∈ s.responses, legalResponse r) :
    s.release.Inv where
  kbuf_wf := ofBytes_wf _
  dbuf_wf := ofBytes_wf _
  wbuf_wf := ofBytes_wf _
  obuf_wf := ofBytes_wf _
  kbuf_dense := ofBytes_dense _
  dbuf_dense := ofBytes_dense _
  wbuf_dense := ofBytes_dense _
  obuf_dense := ofBytes_dense _
  lane_registers := by simp [State.release]
  latch_formed := fun hbusy => nomatch hphase.symm.trans hbusy
  responses_legal := hr

/-- A legal response keeps the invariant. -/
theorem answerWith_inv {s : State} {r : Response} (h : s.Inv) (hr : legalResponse r) : (s.answerWith r).Inv := by
  refine release_inv rfl fun q hq => ?_
  rcases List.mem_append.1 hq with hq | hq
  · exact h.responses_legal q hq
  · rw [List.mem_singleton.1 hq]
    exact hr

/-- Reset keeps the invariant. -/
theorem takeReset_inv {s : State} (h : s.Inv) : s.takeReset.Inv := release_inv rfl h.responses_legal

/-- The invariant does not read what the host does next. -/
theorem todo_inv {s : State} (h : s.Inv) (rest : List HostAction) : { s with todo := rest }.Inv := { h with }

/-- Acceptance of a formed command keeps the invariant (10_state.md R23). -/
theorem accept_inv {s : State} {c : Cmd} (h : s.Inv) (hc : c.wf s.params = true) : (s.accept c).Inv :=
  { h with
    kbuf_wf := ofBytes_wf _
    dbuf_wf := ofBytes_wf _
    kbuf_dense := ofBytes_dense _
    dbuf_dense := ofBytes_dense _
    latch_formed := fun _ => by rw [latched_accept]; exact hc }

/-- What an idle core's host does keeps the invariant. -/
theorem hostStep_inv {s t : State} (h : s.Inv) (hstep : hostStep s = .next t) : t.Inv := by
  rcases hostStep_cases hstep with ⟨-, rfl⟩ | ⟨rest, -, rfl⟩ | ⟨-, rfl⟩ | ⟨c, rest, i, -, hdecode, rfl⟩
  · exact h
  · exact todo_inv h rest
  · exact takeReset_inv h
  · exact accept_inv (todo_inv h rest) ((decode_ok_iff s.params c i).1 hdecode).1

/-- The run of the latched command keeps the invariant: it ends in its response, which is legal. -/
theorem exec_latched_inv {s t : State} {i : Instr} (h : s.Inv) (hdecode : decode s.params s.latched = .ok i)
    (hexec : exec i s = .next t) : t.Inv := by
  obtain ⟨r, hanswer, hr⟩ := exec_of_ready (encode_of_decode hdecode) (ready_latched s)
  obtain rfl : t = s.answerWith r := Outcome.next.inj (hexec.symm.trans hr)
  exact answerWith_inv h (legalResponse_of_answer hanswer)

/-! ### The statements -/

/-- Settles O56, by the three things a step can be: the host's action, a reset, or the run of the latched command. -/
theorem everyStepKeepsTheInvariant : Obligations.EveryStepKeepsTheInvariant := by
  intro s t h hstep
  rcases step_cases hstep with ⟨-, hhost⟩ | ⟨-, -, rfl⟩ | ⟨-, -, i, hdecode, hexec⟩
  · exact hostStep_inv h hhost
  · exact takeReset_inv h
  · exact exec_latched_inv h hdecode hexec

/-- Settles O16: a block is eight bytes in a row, whose positions `extractLsb'_toWord_getElem` gives. -/
theorem blockValueBitPositions : Obligations.BlockValueBitPositions := by
  refine ⟨fun l i hl j hj => ?_, fun b hb => ⟨toWord_eq_foldl b, toNat_toWord hb⟩⟩
  have hlen : ((l.drop (8 * i)).take 8).length = 8 := by rw [List.length_take, List.length_drop]; omega
  have hget : ((l.drop (8 * i)).take 8)[j]'(by omega) = l.getD (8 * i + j) 0 := by
    rw [List.getElem_take, List.getElem_drop, List.getD_eq_getElem _ _ (by omega)]
  rw [← hget]
  exact extractLsb'_toWord_getElem hlen _

/-- Settles O54: what reads see after a write, the frame of `memWrite`, and the length of what it leaves. -/
theorem memWriteWritesItsBytesOnly : Obligations.MemWriteWritesItsBytesOnly := by
  intro s S l v a hs ha
  rw [memWrite_space_same]
  refine ⟨fun k hk => ?_, fun b hb => ?_, fun T hT => memWrite_space_other s a v hT, ?_, rfl⟩
  · rw [readByte_writeBytes, if_pos (by omega), Nat.add_sub_cancel_left]
  · rw [readByte_writeBytes, if_neg (by omega)]
  · rw [hs, size_writeBytes_ofBytes l v a ha]

/-- Settles O55, inside the space and past its end. -/
theorem memReadGivesTheBytesInOrder : Obligations.MemReadGivesTheBytesInOrder :=
  fun _ _ _ _ _ hs => ⟨memRead_ofBytes hs, memRead_ofBytes_beyond hs⟩

end Sys2Proof.Machine
end

section
/-! Proofs about the encoding (30_encoding.md): decoder and encoder, the written form of a command, and what the
unit-level functions leave alone. -/

namespace Sys2Proof.Machine

open Host (Outcome)

/-! ### The operation code -/

/-- The two bits of `op` are the whole of it: granularity, then direction (30_encoding.md R61). -/
theorem op_eq_of_bits {op : BitVec 2} {granularity direction : Bool} (hg : op.getLsbD 1 = granularity)
    (hd : op.getLsbD 0 = direction) : op = BitVec.ofBool granularity ++ BitVec.ofBool direction := by
  subst hg hd
  revert op
  decide

/-! ### Decoder and encoder -/

/-- The tuple of every instruction that has one carries its operands whole and selects it. -/
theorem encoding_statement (i : Instr) : Laws.Encoding.Statement i := by
  cases i with
  | encryptBlock d k => exact Laws.Encoding.encryptBlock d k
  | decryptBlock d k => exact Laws.Encoding.decryptBlock d k
  | encryptBytes d k => exact Laws.Encoding.encryptBytes d k
  | decryptBytes d k => exact Laws.Encoding.decryptBytes d k
  | bytesToInt b => exact Laws.Encoding.bytesToInt b
  | intToBytes v L => exact Laws.Encoding.intToBytes v L
  | transform x k => exact Laws.Encoding.transform x k
  | pad d => exact Laws.Encoding.pad d
  | unpad p => exact Laws.Encoding.unpad p
  | ecbEncrypt d k => exact Laws.Encoding.ecbEncrypt d k
  | ecbDecrypt c k => exact Laws.Encoding.ecbDecrypt c k

/-- A command is well formed exactly when its tuple is (30_encoding.md R62, 00_scope.md R10). -/
theorem wf_of_encode {i : Instr} {c : Cmd} (p : Params) (h : encode i = some c) : c.wf p = i.wf p := by
  have hcmd : ∀ op d k, (Cmd.of op d k).wf p = operandsFit p d k := fun op d k => by
    simp [Cmd.wf, Cmd.of, operandsFit]
  cases i with
  | encryptBlock | decryptBlock | encryptBytes | decryptBytes => cases h; exact hcmd _ _ _
  | bytesToInt | intToBytes | transform | pad | unpad | ecbEncrypt | ecbDecrypt => cases h

/-- A well-formed instruction is what its tuple decodes to. -/
theorem decode_of_encode {p : Params} {i : Instr} {c : Cmd} (hwf : i.wf p = true) (h : encode i = some c) :
    decode p c = .ok i := by
  obtain ⟨-, -, hselect⟩ := encoding_statement i c h
  exact (decode_ok_iff p c i).2 ⟨(wf_of_encode p h).trans hwf, hselect.symm⟩

/-- This hardware bounds no length, so every instruction that has an encoding is well formed (00_scope.md R10). -/
theorem wf_hardware_of_encode {i : Instr} {c : Cmd} (h : encode i = some c) : i.wf Params.hardware = true := by
  obtain ⟨hklen, hdlen, -⟩ := encoding_statement i c h
  rw [← wf_of_encode _ h]
  simp [Cmd.wf, hklen, hdlen, Params.hardware, Params.admits]

/-- Past the two length fields, the decoder looks at the bounds alone. -/
theorem decode_of_lengths {p : Params} {c : Cmd} (hk : c.klen = c.key.length) (hd : c.dlen = c.data.length) :
    decode p c =
      if !Params.admits p.maxKlen c.klen then .error .keyTooLong
      else if !Params.admits p.maxDlen c.dlen then .error .dataTooLong
      else .ok (selectCommand c.op c.data c.key) := by
  rw [decode, if_neg (not_not.2 hk), if_neg (not_not.2 hd)]

/-- A table word with no bit above `op` is the command of that code on empty operands (log 1). -/
theorem decodeTableWord_of_lt {w : Nat} (n : Nat) (h : w < 4) :
    decodeTableWord n w = some (selectCommand (BitVec.ofNat 2 w) [] []) := by
  have hklen : w / 4 = 0 := Nat.div_eq_of_lt h
  have hd := (decode_ok_iff Params.hardware (cmdOfTableWord w) _).2
    ⟨by simp [Cmd.wf, cmdOfTableWord, hklen, Params.hardware, Params.admits], rfl⟩
  rw [decodeTableWord, hd]
  rfl

/-- A table word with a bit above `op` claims key bytes that are not there (log 1, 30_encoding.md R62). -/
theorem decodeTableWord_of_le {w : Nat} (n : Nat) (h : 4 ≤ w) : decodeTableWord n w = none := by
  have hklen : (cmdOfTableWord w).klen ≠ (cmdOfTableWord w).key.length :=
    Nat.ne_of_gt (Nat.div_pos h (by decide))
  rw [decodeTableWord, decode, if_pos hklen]

/-! ### Written operands and mnemonics (30_encoding.md R70) -/

theorem hexValue_hexDigit : ∀ n < 16, hexValue (hexDigit n) = some n := by decide

/-- A digit is neither the comma that ends an operand nor the bracket that opens the empty one. -/
theorem hexDigit_ne_punctuation : ∀ n < 16, hexDigit n ≠ ',' ∧ hexDigit n ≠ '[' := by decide

theorem byte_div_lt (b : Byte) : b.toNat / 16 < 16 := by have := b.isLt; omega

theorem byte_mod_lt (b : Byte) : b.toNat % 16 < 16 := Nat.mod_lt _ (by decide)

/-- Two digits per byte lose nothing. -/
theorem readHex_writeHex (l : List Byte) : readHex (writeHex l) = some l := by
  induction l with
  | nil => rfl
  | cons b l ih =>
    simp only [writeHex, readHex, hexValue_hexDigit _ (byte_div_lt b), hexValue_hexDigit _ (byte_mod_lt b), ih,
      Nat.div_add_mod, BitVec.ofNat_toNat, BitVec.setWidth_eq]

theorem comma_notMem_writeHex (l : List Byte) : ',' ∉ writeHex l := by
  induction l with
  | nil => simp [writeHex]
  | cons b l ih =>
    simp only [writeHex, List.mem_cons, not_or]
    exact ⟨(hexDigit_ne_punctuation _ (byte_div_lt b)).1.symm, (hexDigit_ne_punctuation _ (byte_mod_lt b)).1.symm, ih⟩

theorem comma_notMem_writeOperand (l : List Byte) : ',' ∉ writeOperand l := by
  cases l with
  | nil => decide
  | cons b l => exact comma_notMem_writeHex (b :: l)

/-- A written operand reads back: digits are never taken for the empty sequence. -/
theorem readOperand_writeOperand (l : List Byte) : readOperand (writeOperand l) = some l := by
  cases l with
  | nil => rfl
  | cons b l =>
    have hempty : writeHex (b :: l) ≠ emptyText := fun h =>
      (hexDigit_ne_punctuation _ (byte_div_lt b)).2 (List.cons.inj h).1
    rw [writeOperand, readOperand, if_neg hempty, if_neg (by simp [writeHex]), readHex_writeHex]

theorem readMnemonic_mnemonic : ∀ op, readMnemonic (mnemonic op) = some op := by decide

theorem space_notMem_mnemonic : ∀ op, ' ' ∉ mnemonic op := by decide

/-! ### Written commands -/

/-- Reading up to a separator gives the text before it, where the separator does not occur there. -/
theorem takeWhile_ne_separator {sep : Char} {l : List Char} (r : List Char) (h : sep ∉ l) :
    (l ++ sep :: r).takeWhile (fun ch => decide (ch ≠ sep)) = l := by
  rw [List.takeWhile_append_of_pos fun ch hch => decide_eq_true (ne_of_mem_of_not_mem hch h)]
  simp

/-- What is left is the text from the separator on. -/
theorem dropWhile_ne_separator {sep : Char} {l : List Char} (r : List Char) (h : sep ∉ l) :
    (l ++ sep :: r).dropWhile (fun ch => decide (ch ≠ sep)) = sep :: r := by
  rw [List.dropWhile_append_of_pos fun ch hch => decide_eq_true (ne_of_mem_of_not_mem hch h)]
  simp

/-- Reading a written tuple gives the instruction the tuple selects. -/
theorem readInstr_writeCmd (c : Cmd) : readInstr (writeCmd c) = some (selectCommand c.op c.data c.key) := by
  have hop := space_notMem_mnemonic c.op
  have hdata := comma_notMem_writeOperand c.data
  simp only [readInstr, writeCmd, dropWhile_ne_separator _ hop, takeWhile_ne_separator _ hop,
    dropWhile_ne_separator _ hdata, takeWhile_ne_separator _ hdata, readMnemonic_mnemonic, readOperand_writeOperand]

/-! ### The frame of the unit-level functions (30_encoding.md R68) -/

/-- The phase, the latched operation code and the host are as before. -/
structure SameHost (s t : State) : Prop where
  phase : t.phase = s.phase
  op : t.op = s.op
  todo : t.todo = s.todo
  responses : t.responses = s.responses

/-- `KEYR`, the lanes, the sequencing and the key operand are as before (10_state.md R24, R25). -/
structure SameDatapath (s t : State) : Prop where
  keyr : t.keyr = s.keyr
  xr : t.xr = s.xr
  yr : t.yr = s.yr
  lanes : t.lanes = s.lanes
  idx : t.idx = s.idx
  nblk : t.nblk = s.nblk
  kbuf : t.kbuf = s.kbuf
  klen : t.klen = s.klen

/-- What the padding and the codec write: neither the host's part of the state nor the datapath's. -/
structure PaddingFrame (s t : State) : Prop extends SameHost s t, SameDatapath s t

theorem SameHost.trans {s t u : State} (h : SameHost s t) (h' : SameHost t u) : SameHost s u where
  phase := h'.phase.trans h.phase
  op := h'.op.trans h.op
  todo := h'.todo.trans h.todo
  responses := h'.responses.trans h.responses

/-- Block steps leave the host alone. -/
theorem BlockFrame.sameHost {dst : Space} {s t : State} (h : BlockFrame dst s t) : SameHost s t where
  phase := h.phase
  op := h.op
  todo := h.todo
  responses := h.responses

theorem execIntToBytes_frame {v L : Nat} {s t : State} (h : execIntToBytes v L s = .next t) : PaddingFrame s t := by
  unfold execIntToBytes at h
  split at h <;> cases h <;> constructor <;> constructor <;> rfl

theorem execPad_frame {d : List Byte} {s t : State} (h : execPad d s = .next t) : PaddingFrame s t := by
  rw [execPad, padUnit_eq (d := d) rfl] at h
  cases h
  constructor <;> constructor <;> rfl

/-- `unpad` writes `NR`, `OBUF` and `ST` only; on the empty sequence it answers no state (42_padding.md R103, R109). -/
theorem unpadUnit_frame {p : List Byte} {s : State} {r : State × Option Status} (hp : s.wbuf = Memory.ofBytes p)
    (h : unpadUnit s = .next r) : PaddingFrame s r.1 := by
  by_cases hne : p = []
  · simp [unpadUnit, hp, hne, Memory.size] at h
  · rw [unpadUnit_eq hp hne] at h
    cases h
    split <;> constructor <;> constructor <;> rfl

theorem execUnpad_frame {p : List Byte} {s t : State} (h : execUnpad p s = .next t) : PaddingFrame s t := by
  obtain ⟨r, hr, ht⟩ := andThen_eq_next h
  cases ht
  exact { unpadUnit_frame (s := stageWork p s) (p := p) rfl hr with }

theorem execEcbEncrypt_sameHost {d k : List Byte} {s t : State} (h : execEcbEncrypt d k s = .next t) :
    SameHost s t := by
  unfold execEcbEncrypt at h
  split at h
  · rename_i hk
    obtain ⟨u, hu, -, -, hframe, -⟩ := ecbEncryptUnit_next (s := stageKey k (stageData d s)) rfl hk rfl
    rw [hu] at h
    cases h
    exact { hframe.sameHost with }
  · cases h

theorem execEcbDecrypt_sameHost {c k : List Byte} {s t : State} (h : execEcbDecrypt c k s = .next t) :
    SameHost s t := by
  unfold execEcbDecrypt at h
  split at h
  · rename_i hk
    obtain ⟨r, hr, ht⟩ := andThen_eq_next h
    cases ht
    by_cases hc : c.length % 8 = 0
    · obtain ⟨u, hu, -, hwbuf, hframe, -⟩ :=
        ecbDecryptUnit_blocks (s := stageKey k (stageData c s)) rfl hk rfl hc
      exact { hframe.sameHost.trans (unpadUnit_frame hwbuf (hu.symm.trans hr)).toSameHost with }
    · rw [ecbDecryptUnit_misaligned (by simpa [stageKey, stageData, blockSize] using hc)] at hr
      cases hr
      exact ⟨rfl, rfl, rfl, rfl⟩
  · cases h

/-- Each of the seven leaves the host alone, and the four that are no datapath leave the datapath's registers alone. -/
theorem exec_unit_frame {i : Instr} {s t : State} (hi : encode i = none) (h : exec i s = .next t) :
    SameHost s t ∧ ((∀ x k, i ≠ .transform x k) → (∀ d k, i ≠ .ecbEncrypt d k) → (∀ d k, i ≠ .ecbDecrypt d k) →
      SameDatapath s t) := by
  have hpadding : ∀ {P Q R : Prop}, PaddingFrame s t → SameHost s t ∧ (P → Q → R → SameDatapath s t) :=
    fun hf => ⟨hf.toSameHost, fun _ _ _ => hf.toSameDatapath⟩
  cases i with
  | encryptBlock | decryptBlock | encryptBytes | decryptBytes => cases hi
  | bytesToInt b => cases h; exact hpadding (by constructor <;> constructor <;> rfl)
  | intToBytes v L => exact hpadding (execIntToBytes_frame h)
  | transform x k => cases h; exact ⟨⟨rfl, rfl, rfl, rfl⟩, fun hne => absurd rfl (hne x k)⟩
  | pad d => exact hpadding (execPad_frame h)
  | unpad p => exact hpadding (execUnpad_frame h)
  | ecbEncrypt d k => exact ⟨execEcbEncrypt_sameHost h, fun _ hne => absurd rfl (hne d k)⟩
  | ecbDecrypt c k => exact ⟨execEcbDecrypt_sameHost h, fun _ _ hne => absurd rfl (hne c k)⟩

/-! ### The statements -/

/-- Settles O3: each way by the lemma of its name, and a formed tuple is at hand where no bound stands in its way. -/
theorem decodeAndEncodeAgree : Obligations.DecodeAndEncodeAgree := by
  refine ⟨fun p i c hwf he => ⟨(wf_of_encode p he).trans hwf, decode_of_encode hwf he⟩, fun p c i hd => ?_,
    fun i => ⟨fun hnone p c hd => ?_, fun hall => ?_⟩⟩
  · have he := encode_of_decode hd
    exact ⟨(wf_of_encode p he).symm.trans ((decode_ok_iff p c i).1 hd).1, he⟩
  · rw [encode_of_decode hd] at hnone
    cases hnone
  · exact Option.eq_none_iff_forall_ne_some.2 fun c he => hall _ c (decode_of_encode (wf_hardware_of_encode he) he)

/-- Settles O1: the two bits give the code, and the code the instruction. -/
theorem everyFormedTupleSelectsOneCommand : Obligations.EveryFormedTupleSelectsOneCommand := by
  intro p c hwf
  have hd : decode p c = .ok (selectCommand c.op c.data c.key) := (decode_ok_iff p c _).2 ⟨hwf, rfl⟩
  have hcode : ∀ {op i}, c.op = op → selectCommand op c.data c.key = i → c.op = op ∧ decode p c = .ok i := by
    rintro _ _ rfl rfl
    exact ⟨rfl, hd⟩
  exact ⟨fun hg hdir => hcode (op_eq_of_bits hg hdir) (selectCommand_encryptBlock _ _),
    fun hg hdir => hcode (op_eq_of_bits hg hdir) (selectCommand_decryptBlock _ _),
    fun hg hdir => hcode (op_eq_of_bits hg hdir) (selectCommand_encryptBytes _ _),
    fun hg hdir => hcode (op_eq_of_bits hg hdir) (selectCommand_decryptBytes _ _),
    _, hd, fun _ hi => Except.ok.inj (hi.symm.trans hd)⟩

/-- Settles O4: a written tuple reads back as what it selects, and an encoding selects its instruction. -/
theorem writtenCommandsReadBack : Obligations.WrittenCommandsReadBack := by
  intro i c he
  obtain ⟨-, -, hselect⟩ := encoding_statement i c he
  exact ⟨writeCmd c, by rw [writeInstr, he, Option.map_some], by rw [readInstr_writeCmd, hselect]⟩

/-- Settles O53, by the frame of `exec` on the unit-level functions. -/
theorem unitCallsLeaveTheHostAlone : Obligations.UnitCallsLeaveTheHostAlone := by
  intro i s t hi h
  obtain ⟨⟨hphase, hop, htodo, hresponses⟩, hdatapath⟩ := exec_unit_frame hi h
  refine ⟨hphase, hop, htodo, hresponses, exec_params h, fun htransform hencrypt hdecrypt => ?_⟩
  obtain ⟨hkeyr, hxr, hyr, hlanes, hidx, hnblk, hkbuf, hklen⟩ := hdatapath htransform hencrypt hdecrypt
  exact ⟨hkeyr, hxr, hyr, hlanes, hidx, hnblk, hkbuf, hklen⟩

/-- Settles O2, in the order in which the decoder looks. -/
theorem decoderTurnsAwayUnformedTuples : Obligations.DecoderTurnsAwayUnformedTuples := by
  refine fun p c => ⟨fun hk => if_pos hk, fun hk hd => ?_, fun hk hd hbound => ?_, fun hk hd hkey hbound => ?_, ?_⟩
  · rw [decode, if_neg (not_not.2 hk), if_pos hd]
  · rw [decode_of_lengths hk hd, hbound]; rfl
  · rw [decode_of_lengths hk hd, hkey, hbound]; rfl
  · simp [decode_ok_iff]

/-- Settles O5: the table words by their one bound, the tuple by its two lengths. -/
theorem opcodeWordsDecode : Obligations.OpcodeWordsDecode :=
  ⟨(decodeTableWord_of_lt 8 (by decide)).trans (congrArg some (selectCommand_encryptBlock [] [])),
    (decodeTableWord_of_lt 8 (by decide)).trans (congrArg some (selectCommand_decryptBlock [] [])),
    (decodeTableWord_of_lt 8 (by decide)).trans (congrArg some (selectCommand_encryptBytes [] [])),
    (decodeTableWord_of_lt 8 (by decide)).trans (congrArg some (selectCommand_decryptBytes [] [])),
    decodeTableWord_of_le 8 (by decide),
    (decode_ok_iff _ _ _).2 ⟨by decide, (selectCommand_encryptBytes _ _).symm⟩⟩

end Sys2Proof.Machine
end

section
/-! Proofs about the codec (40_codec.md): the value of a byte sequence by its places, the digits of a number, and the two
functions' round trips. -/

namespace Sys2Proof.Machine

/-! ### The value of a byte sequence (R80) -/

/-- A leading zero byte leaves the loop where it starts. -/
theorem bytesToInt_zero_cons (b : List Byte) : bytesToInt (0 :: b) = bytesToInt b := rfl

/-- Every byte counts by its place: one more byte at the end moves each of the others up by one place. -/
theorem bytesToInt_eq_sum (b : List Byte) :
    bytesToInt b = ∑ k ∈ Finset.range b.length, (b.getD k 0).toNat * 256 ^ (b.length - 1 - k) := by
  induction b using List.reverseRecOn with
  | nil => rfl
  | append_singleton b x ih =>
    rw [bytesToInt_append_singleton, ih, List.length_append, List.length_singleton, Finset.sum_range_succ,
      Finset.sum_mul]
    congr 1
    · refine Finset.sum_congr rfl fun k hk => ?_
      have hk : k < b.length := Finset.mem_range.1 hk
      have hplace : b.length + 1 - 1 - k = b.length - 1 - k + 1 := by omega
      rw [List.getD_append _ _ _ _ hk, hplace, pow_succ, mul_assoc]
    · simp

/-- Every number that fits `L` bytes is the value of `L` bytes: its last digit follows those of its quotient by 256. -/
theorem exists_bytesToInt_eq {v L : Nat} (h : v < 256 ^ L) : ∃ b : List Byte, b.length = L ∧ bytesToInt b = v := by
  induction L generalizing v with
  | zero => exact ⟨[], rfl, (Nat.lt_one_iff.1 h).symm⟩
  | succ L ih =>
    obtain ⟨b, hlen, hb⟩ := ih (v := v / 256) (by rw [pow_succ] at h; omega)
    refine ⟨b ++ [BitVec.ofNat 8 v], by simp [hlen], ?_⟩
    rw [bytesToInt_append_singleton, hb, BitVec.toNat_ofNat]
    exact Nat.div_add_mod' v 256

/-! ### The digits of a number (R81) -/

theorem intToBytes_of_le {v L : Nat} (h : 256 ^ L ≤ v) : intToBytes v L = none := if_pos h

theorem intToBytes_of_lt {v L : Nat} (h : v < 256 ^ L) :
    intToBytes v L = some ((List.range L).map fun k => BitVec.ofNat 8 (v / 256 ^ (L - 1 - k) % 256)) :=
  if_neg (Nat.not_le.2 h)

/-- `intToBytes` answers only for a value that fits. -/
theorem lt_of_intToBytes {v L : Nat} {b : List Byte} (h : intToBytes v L = some b) : v < 256 ^ L := by
  by_contra hle
  rw [intToBytes_of_le (Nat.not_lt.1 hle)] at h
  cases h

/-- Each byte is the digit of its place. -/
theorem toNat_getD_of_intToBytes {v L : Nat} {b : List Byte} (h : intToBytes v L = some b) {k : Nat} (hk : k < L) :
    (b.getD k 0).toNat = v / 256 ^ (L - 1 - k) % 256 := by
  rw [intToBytes_of_lt (lt_of_intToBytes h)] at h
  obtain rfl := Option.some.inj h
  simp [hk]

/-- One more digit at the end of a number is one more byte at the end of its bytes. -/
theorem intToBytes_append_singleton {v L : Nat} {b : List Byte} (h : intToBytes v L = some b) (x : Byte) :
    intToBytes (v * 256 + x.toNat) (L + 1) = some (b ++ [x]) := by
  have hv := lt_of_intToBytes h
  have hx : x.toNat < 256 := x.isLt
  rw [intToBytes_of_lt hv] at h
  obtain rfl := Option.some.inj h
  rw [intToBytes_of_lt (by rw [pow_succ]; omega), List.range_succ, List.map_append]
  congr 2
  · refine List.map_congr_left fun k hk => ?_
    have hk : k < L := List.mem_range.1 hk
    have hplace : L + 1 - 1 - k = L - 1 - k + 1 := by omega
    have hquotient : (v * 256 + x.toNat) / 256 = v := by omega
    rw [hplace, pow_succ', ← Nat.div_div_eq_div_mul, hquotient]
  · simp [Nat.mod_eq_of_lt hx]

/-! ### The round trips (R82) -/

/-- The bytes of a sequence's value are the sequence. -/
theorem intToBytes_bytesToInt (b : List Byte) : intToBytes (bytesToInt b) b.length = some b := by
  induction b using List.reverseRecOn with
  | nil => rfl
  | append_singleton b x ih =>
    rw [bytesToInt_append_singleton, List.length_append, List.length_singleton, intToBytes_append_singleton ih x]

/-- A number that fits has its bytes, whose value it is. -/
theorem exists_intToBytes_eq {v L : Nat} (h : v < 256 ^ L) : ∃ b, intToBytes v L = some b ∧ bytesToInt b = v := by
  obtain ⟨b, rfl, rfl⟩ := exists_bytesToInt_eq h
  exact ⟨b, intToBytes_bytesToInt b, rfl⟩

/-- Sequences of one length with one value are the same: both are the bytes of that value. -/
theorem bytesToInt_inj {b c : List Byte} (hlen : b.length = c.length) (h : bytesToInt b = bytesToInt c) : b = c := by
  have hb := intToBytes_bytesToInt b
  rw [hlen, h, intToBytes_bytesToInt c] at hb
  exact (Option.some.inj hb).symm

/-! ### The unit-level functions -/

theorem exec_bytesToInt (b : List Byte) (s : State) :
    exec (.bytesToInt b) s = .next { s with ret := .value (bytesToInt b) } := rfl

/-- `exec` returns the bytes where there are some. -/
theorem exec_intToBytes_of_some {v L : Nat} {b : List Byte} (h : intToBytes v L = some b) (s : State) :
    exec (.intToBytes v L) s = .next { s with ret := .bytes b } := by
  change execIntToBytes v L s = _
  rw [execIntToBytes, h]

/-- `exec` returns the failure CODEC_RANGE where there are none. -/
theorem exec_intToBytes_of_none {v L : Nat} (h : intToBytes v L = none) (s : State) :
    exec (.intToBytes v L) s = .next { s with ret := .codecRange } := by
  change execIntToBytes v L s = _
  rw [execIntToBytes, h]

/-! ### The statements -/

/-- Settles O13, by the sum over the places; one length and one value leave one sequence. -/
theorem bytesToIntReturnsTheBigEndianValue : Obligations.BytesToIntReturnsTheBigEndianValue :=
  ⟨fun b s => ⟨exec_bytesToInt b s, bytesToInt_eq_sum b, bytesToInt_lt b, bytesToInt_zero_cons b⟩,
    fun _ _ => bytesToInt_inj, rfl⟩

/-- Settles O14, on the two sides of the bound. -/
theorem intToBytesGivesExactlyLBytesOrFails : Obligations.IntToBytesGivesExactlyLBytesOrFails := by
  refine fun v L s => ⟨fun hle => exec_intToBytes_of_none (intToBytes_of_le hle) s, fun hlt => ?_⟩
  obtain ⟨b, hb, -⟩ := exists_intToBytes_eq hlt
  exact ⟨b, intToBytes_length hb, fun _ => toNat_getD_of_intToBytes hb, exec_intToBytes_of_some hb s⟩

/-- Settles O15: the first by induction on the sequence, the second because every number that fits is a sequence's value. -/
theorem codecRoundTrips : Obligations.CodecRoundTrips :=
  ⟨intToBytes_bytesToInt, fun _ _ => exists_intToBytes_eq⟩

end Sys2Proof.Machine
end

section
/-! Proofs about the block transform (41_block_transform.md): its laws, its agreement with the exclusive-or of bytes, and
the unit-level function. -/

namespace Sys2Proof.Machine

/-! ### The laws (R90, R93) -/

theorem getLsbD_transform (x k : Word) (j : Nat) : (transform x k).getLsbD j = (x.getLsbD j ^^ k.getLsbD j) :=
  BitVec.getLsbD_xor

theorem transform_comm (x k : Word) : transform x k = transform k x := BitVec.xor_comm x k

theorem transform_zero (x : Word) : transform x 0 = x := BitVec.xor_zero

theorem transform_zero_left (x : Word) : transform 0 x = x := BitVec.zero_xor

theorem transform_self (x : Word) : transform x x = 0 := BitVec.xor_self

theorem transform_allOnes (x : Word) : transform x (BitVec.allOnes 64) = ~~~x := BitVec.xor_allOnes

/-- The key undoes itself (R93 (a)). -/
@[simp] theorem transform_transform (x k : Word) : transform (transform x k) k = x := by
  rw [transform, transform, BitVec.xor_assoc, BitVec.xor_self, BitVec.xor_zero]

/-- Under one key the transform is its own inverse, hence a permutation of the blocks (R93 (b)). -/
theorem transform_bijective (k : Word) : Function.Bijective fun x : Word => transform x k :=
  Function.Involutive.bijective fun x => transform_transform x k

/-- Equal blocks and no others give equal blocks (R93 (f)). -/
theorem transform_left_inj (x y k : Word) : transform x k = transform y k ↔ x = y :=
  (transform_bijective k).injective.eq_iff

/-- Only the key zero has a fixed point (R93 (d)): a fixed point is also what the key zero makes of the block. -/
theorem transform_eq_left_iff (x k : Word) : transform x k = x ↔ k = 0 := by
  calc transform x k = x
    _ ↔ transform k x = transform 0 x := by rw [transform_comm, transform_zero_left]
    _ ↔ k = 0 := transform_left_inj k 0 x

/-- The key cancels in the difference of two outputs (R93 (f)). -/
theorem transform_xor_transform (x y k : Word) : transform x k ^^^ transform y k = x ^^^ y := by
  calc transform x k ^^^ transform y k
    _ = transform x k ^^^ transform k y := by rw [transform_comm y k]
    _ = transform (transform x k) k ^^^ y := (BitVec.xor_assoc (transform x k) k y).symm
    _ = x ^^^ y := by rw [transform_transform]

/-! ### The transform through the codec (R94) -/

/-- One more byte on each side: the shifted values and the low bytes are transformed apart. -/
theorem transform_toWord_append_singleton (X K : List Byte) (x k : Byte) :
    transform (toWord (X ++ [x])) (toWord (K ++ [k]))
      = (transform (toWord X) (toWord K) <<< 8) ||| (x ^^^ k).setWidth 64 := by
  rw [toWord_append_singleton, toWord_append_singleton]
  ext i hi
  by_cases h8 : i < 8
  · simp [transform, h8]
  · have hx := BitVec.getLsbD_of_ge x i (Nat.le_of_not_lt h8)
    have hk := BitVec.getLsbD_of_ge k i (Nat.le_of_not_lt h8)
    simp [transform, h8, hx, hk]

/-- The transform of two values is the value of the byte-wise exclusive-or, for two sequences of one length. -/
theorem transform_toWord {X K : List Byte} (hlen : X.length = K.length) :
    transform (toWord X) (toWord K) = toWord (List.zipWith (· ^^^ ·) X K) := by
  induction X using List.reverseRecOn generalizing K with
  | nil =>
    obtain rfl := List.length_eq_zero_iff.1 hlen.symm
    exact transform_self _
  | append_singleton X x ih =>
    obtain rfl | ⟨K, k, rfl⟩ := K.eq_nil_or_concat'
    · simp at hlen
    · have hXK : X.length = K.length := by simpa using hlen
      rw [transform_toWord_append_singleton, ih hXK, List.zipWith_append hXK]
      exact (toWord_append_singleton _ _).symm

/-- Eight bytes are the bytes of their 64-bit value. -/
theorem intToBytes_toWord {b : List Byte} (h : b.length = 8) : intToBytes (toWord b).toNat 8 = some b := by
  rw [toNat_toWord h, ← h, intToBytes_bytesToInt]

/-- A 64-bit value is the value of its eight bytes. -/
theorem toWord_of_intToBytes {w : Word} {b : List Byte} (h : intToBytes w.toNat 8 = some b) : toWord b = w := by
  obtain ⟨c, hc, hvalue⟩ := exists_intToBytes_eq (lt_of_intToBytes h)
  obtain rfl := Option.some.inj (h.symm.trans hc)
  rw [toWord, hvalue, BitVec.ofNat_toNat, BitVec.setWidth_eq]

/-- Through the codec, the transform of eight bytes is the byte-wise exclusive-or with the eight bytes of the key. -/
theorem intToBytes_transform_toWord {X K : List Byte} (hX : X.length = 8) (hK : K.length = 8) :
    intToBytes (transform (toWord X) (toWord K)).toNat 8 = some (List.zipWith (· ^^^ ·) X K) := by
  rw [transform_toWord (hX.trans hK.symm), intToBytes_toWord (by simp [hX, hK])]

/-- Byte `j` of a byte-wise exclusive-or is the exclusive-or of the two bytes `j`. -/
theorem getD_zipWith_xor {X K : List Byte} {j : Nat} (hX : j < X.length) (hK : j < K.length) :
    (List.zipWith (· ^^^ ·) X K).getD j 0 = X.getD j 0 ^^^ K.getD j 0 := by
  simp [hX, hK]

/-! ### The unit-level function -/

/-- The whole next state of `transform` (R90). -/
theorem exec_transform (x k : Word) (s : State) :
    exec (.transform x k) s = .next { s with xr := x, keyr := k, yr := x ^^^ k, ret := .word (x ^^^ k) } := rfl

/-! ### The statements -/

/-- Settles O19: a block and a key are the values of their eight bytes, so the second form gives the first. -/
theorem transformIsByteWise : Obligations.TransformIsByteWise := by
  refine ⟨fun x k X K Y hX hK hY j hj => ?_, fun _ _ => intToBytes_transform_toWord⟩
  have hXlen := intToBytes_length hX
  have hKlen := intToBytes_length hK
  obtain rfl := toWord_of_intToBytes hX
  obtain rfl := toWord_of_intToBytes hK
  obtain rfl := Option.some.inj (hY.symm.trans (intToBytes_transform_toWord hXlen hKlen))
  exact getD_zipWith_xor (hXlen ▸ hj) (hKlen ▸ hj)

/-- Settles O17: operands that already stand in `XR` and `KEYR` are stood there again. -/
theorem transformWritesTheExclusiveOr : Obligations.TransformWritesTheExclusiveOr := by
  refine ⟨fun x k s => ⟨exec_transform x k s, ?_, fun j _ => getLsbD_transform x k j⟩, fun x =>
    ⟨transform_zero x, transform_allOnes x, transform_self x, transform_zero_left x⟩⟩
  rintro rfl rfl
  exact exec_transform s.xr s.keyr s

/-- Settles O18, law by law. -/
theorem transformLaws : Obligations.TransformLaws :=
  ⟨transform_transform, transform_bijective, transform_zero, transform_eq_left_iff, transform_comm,
    transform_xor_transform, transform_left_inj⟩

end Sys2Proof.Machine
end

section
/-! Proofs about the padding (42_padding.md): the pad length, the rules of `unpad` on byte sequences, and what the two
unit-level functions do with them. -/

namespace Sys2Proof.Machine

/-! ### The pad length (R100, R102) -/

/-- The pad length lies in 1..bs. -/
theorem padLength_bounds_of_pos {bs : Nat} (h : 1 ≤ bs) (L : Nat) : 1 ≤ padLength bs L ∧ padLength bs L ≤ bs := by
  have hlt : L % bs < bs := Nat.mod_lt L h
  simp only [padLength]
  omega

/-- The pad fills up the last block. -/
theorem add_padLength_mod {bs : Nat} (h : 1 ≤ bs) (L : Nat) : (L + padLength bs L) % bs = 0 := by
  have hlt : L % bs < bs := Nat.mod_lt L h
  have hdecomp : L % bs + bs * (L / bs) = L := Nat.mod_add_div L bs
  have hsum : L + padLength bs L = bs * (L / bs + 1) := by
    rw [padLength, Nat.mul_add_one]
    omega
  rw [hsum, Nat.mul_mod_right]

/-- A byte holds every pad length up to 255. -/
theorem toNat_ofNat_byte {n : Nat} (h : n ≤ 255) : (BitVec.ofNat 8 n).toNat = n :=
  Nat.mod_eq_of_lt (by omega)

/-! ### Padded sequences (R101, R102) -/

/-- The last byte of a non-empty pad. -/
theorem getLast?_append_replicate (d : List Byte) {n : Nat} (h : 1 ≤ n) (v : Byte) :
    (d ++ List.replicate n v).getLast? = some v := by
  rw [List.getLast?_append, List.getLast?_replicate, if_neg (by omega), Option.some_or]

/-- The general `pad(d, bs)` on the block sizes that have a meaning. -/
theorem padWith_of_range {bs : Nat} (h1 : 1 ≤ bs) (h255 : bs ≤ 255) (d : List Byte) :
    padWith bs d = some (d ++ List.replicate (padLength bs d.length) (BitVec.ofNat 8 (padLength bs d.length))) :=
  if_pos ⟨h1, h255⟩

/-- It answers no other block size (93_implementation_defined.md U15). -/
theorem padWith_of_not_range {bs : Nat} (h : bs < 1 ∨ 255 < bs) (d : List Byte) : padWith bs d = none :=
  if_neg (by omega)

theorem getLast?_padBytes (d : List Byte) :
    (padBytes d).getLast? = some (BitVec.ofNat 8 (padLength blockSize d.length)) :=
  getLast?_append_replicate d (padLength_bounds d.length).1 _

theorem take_padBytes (d : List Byte) : (padBytes d).take d.length = d := List.take_left

theorem drop_padBytes (d : List Byte) :
    (padBytes d).drop d.length
      = List.replicate (padLength blockSize d.length) (BitVec.ofNat 8 (padLength blockSize d.length)) :=
  List.drop_left

/-! ### The rules of `unpad` by setting (R106 to R108, R112) -/

theorem unpadBytes_unchecked_of_pos (keepAll : Bool) (p : List Byte) {n : Nat} (h : 1 ≤ n) :
    unpadBytes .unchecked keepAll p n = .ok (p.take (p.length - n)) :=
  congrArg Except.ok (if_neg (Nat.ne_of_gt h))

theorem unpadBytes_range_of_bad (keepAll : Bool) {p : List Byte} {n : Nat} (h : n = 0 ∨ p.length < n) :
    unpadBytes .range keepAll p n = .error (paddingError causePadRange) :=
  if_pos h

theorem unpadBytes_range_of_fits (keepAll : Bool) {p : List Byte} {n : Nat} (h1 : 1 ≤ n) (hn : n ≤ p.length) :
    unpadBytes .range keepAll p n = .ok (p.take (p.length - n)) :=
  if_neg (by omega)

theorem unpadBytes_full_of_bad (keepAll : Bool) {p : List Byte} {n : Nat} (h : n = 0 ∨ 8 < n ∨ p.length < n) :
    unpadBytes .full keepAll p n = .error (paddingError causePadRange) :=
  if_pos h

/-- Past the range test, FULL looks at the pad bytes (R108). -/
theorem unpadBytes_full_of_fits (keepAll : Bool) {p : List Byte} {n : Nat} (h1 : 1 ≤ n) (h8 : n ≤ 8)
    (hn : n ≤ p.length) :
    unpadBytes .full keepAll p n =
      if ∀ x ∈ p.drop (p.length - n), x = BitVec.ofNat 8 n then .ok (p.take (p.length - n))
      else .error (paddingError causePadMismatch) :=
  if_neg (by simp only [blockSize]; omega)

/-- On `n` bytes of value `n` at the end, with `n` in 1..8, every setting removes just these (R105). -/
theorem unpadBytes_append_replicate (check : PadCheck) (keepAll : Bool) (d : List Byte) {n : Nat} (h1 : 1 ≤ n)
    (h8 : n ≤ 8) : unpadBytes check keepAll (d ++ List.replicate n (BitVec.ofNat 8 n)) n = .ok d := by
  have hlen : (d ++ List.replicate n (BitVec.ofNat 8 n)).length = d.length + n := by simp
  have htake : (d ++ List.replicate n (BitVec.ofNat 8 n)).take (d.length + n - n) = d := by simp
  cases check with
  | unchecked => rw [unpadBytes_unchecked_of_pos _ _ h1, hlen, htake]
  | range => rw [unpadBytes_range_of_fits _ h1 (by omega), hlen, htake]
  | full =>
    have hpad : ∀ x ∈ (d ++ List.replicate n (BitVec.ofNat 8 n)).drop (d.length + n - n), x = BitVec.ofNat 8 n := by
      rw [Nat.add_sub_cancel, List.drop_left]
      exact fun x => List.eq_of_mem_replicate
    rw [unpadBytes_full_of_fits _ h1 h8 (by omega), hlen, htake, if_pos hpad]

/-- Unpadding inverts padding, under every setting (R110). -/
theorem unpadBytes_padBytes (check : PadCheck) (keepAll : Bool) (d : List Byte) :
    unpadBytes check keepAll (padBytes d) ((padBytes d).getLastD 0).toNat = .ok d := by
  obtain ⟨h1, h8⟩ := padLength_bounds d.length
  rw [List.getLastD_eq_getLast?, getLast?_padBytes, Option.getD_some, toNat_ofNat_byte (by omega)]
  exact unpadBytes_append_replicate check keepAll d h1 h8

/-- Padding loses nothing, since unpadding gives the data back (R101 (e)). -/
theorem padBytes_injective {d e : List Byte} (h : padBytes d = padBytes e) : d = e := by
  have hd := unpadBytes_padBytes .full false d
  rw [h, unpadBytes_padBytes] at hd
  exact (Except.ok.inj hd).symm

/-! ### The unit-level functions -/

/-- The whole next state of `pad` (R100). -/
theorem exec_pad (d : List Byte) (s : State) :
    exec (.pad d) s = .next
      { s with
        dbuf := Memory.ofBytes d, dlen := d.length, nr := BitVec.ofNat 8 (padLength blockSize d.length)
        wbuf := Memory.ofBytes (padBytes d), ret := .bytes (padBytes d) } := by
  change execPad d s = _
  rw [execPad, padUnit_eq (d := d) rfl, andThen_next, bytes_ofBytes]
  rfl

/-- `unpad` where the rule of the setting gives a result: `OBUF` is written, `ST` is not (R103). -/
theorem unpadUnit_of_ok {s : State} {p d : List Byte} {b : Byte} (hp : s.wbuf = Memory.ofBytes p)
    (hb : p.getLast? = some b)
    (h : unpadBytes s.params.padCheck (Config.unpadZeroKeepsAll s.draws) p b.toNat = .ok d) :
    unpadUnit s = .next ({ s with nr := b, obuf := Memory.ofBytes d }, none) := by
  have hne : p ≠ [] := List.ne_nil_of_mem (List.mem_of_getLast? hb)
  rw [unpadUnit_eq hp hne, List.getLastD_eq_getLast?, hb, Option.getD_some, h]

/-- `unpad` where the rule of the setting gives a failure: `ST` is written, `OBUF` is not (R103, log 20). -/
theorem unpadUnit_of_error {s : State} {p : List Byte} {b : Byte} {st : Status} (hp : s.wbuf = Memory.ofBytes p)
    (hb : p.getLast? = some b)
    (h : unpadBytes s.params.padCheck (Config.unpadZeroKeepsAll s.draws) p b.toNat = .error st) :
    unpadUnit s = .next ({ s with nr := b, st := st }, some st) := by
  have hne : p ≠ [] := List.ne_nil_of_mem (List.mem_of_getLast? hb)
  rw [unpadUnit_eq hp hne, List.getLastD_eq_getLast?, hb, Option.getD_some, h]

/-- `unpad` of the empty sequence has no last byte to read (R109). -/
theorem unpadUnit_of_empty {s : State} (h : s.wbuf = Memory.ofBytes []) : unpadUnit s = .refused .unpadOfEmpty :=
  if_pos (by rw [h, size_ofBytes, List.length_nil])

/-- The whole next state of an `unpad` that succeeds. -/
theorem exec_unpad_of_ok {s : State} {check : PadCheck} {p d : List Byte} {b : Byte}
    (hcheck : s.params.padCheck = check) (hb : p.getLast? = some b)
    (h : unpadBytes check (Config.unpadZeroKeepsAll s.draws) p b.toNat = .ok d) :
    exec (.unpad p) s = .next
      { s with
        wbuf := Memory.ofBytes p, nr := b, obuf := Memory.ofBytes d, ret := .bytes d, draws := s.draws + 1 } := by
  subst hcheck
  change execUnpad p s = _
  rw [execUnpad, unpadUnit_of_ok (s := stageWork p s) rfl hb h, andThen_next, returnOf, bytes_ofBytes]
  rfl

/-- The whole next state of an `unpad` that fails. -/
theorem exec_unpad_of_error {s : State} {check : PadCheck} {p : List Byte} {b : Byte} {st : Status}
    (hcheck : s.params.padCheck = check) (hb : p.getLast? = some b)
    (h : unpadBytes check (Config.unpadZeroKeepsAll s.draws) p b.toNat = .error st) :
    exec (.unpad p) s = .next
      { s with wbuf := Memory.ofBytes p, nr := b, st := st, ret := .failed st, draws := s.draws + 1 } := by
  subst hcheck
  change execUnpad p s = _
  rw [execUnpad, unpadUnit_of_error (s := stageWork p s) rfl hb h, andThen_next, returnOf]
  rfl

/-- On well-formed padding `unpad` gives what stands before it and leaves `ST` alone, whatever the setting (R105). -/
theorem exec_unpad_append_replicate (d : List Byte) {n : Nat} (h1 : 1 ≤ n) (h8 : n ≤ 8) (s : State) :
    ∃ t, exec (.unpad (d ++ List.replicate n (BitVec.ofNat 8 n))) s = .next t ∧ t.obuf = Memory.ofBytes d ∧
      t.st = s.st := by
  refine ⟨_, exec_unpad_of_ok rfl (getLast?_append_replicate d h1 _) ?_, rfl, rfl⟩
  rw [toNat_ofNat_byte (by omega)]
  exact unpadBytes_append_replicate _ _ d h1 h8

/-- `exec` refuses `unpad` of the empty sequence. -/
theorem exec_unpad_nil (s : State) : exec (.unpad []) s = .refused .unpadOfEmpty := by
  change execUnpad [] s = _
  rw [execUnpad, unpadUnit_of_empty (s := stageWork [] s) rfl, andThen_refused]

/-- `ecbDecrypt` of the empty sequence has no block, so it comes down to `unpad` of the empty sequence (R119). -/
theorem exec_ecbDecrypt_nil {key : List Byte} (h : key.length = keySize) (s : State) :
    exec (.ecbDecrypt [] key) s = .refused .unpadOfEmpty := by
  obtain ⟨t, hunit, -, hwbuf, -⟩ :=
    ecbDecryptUnit_blocks (s := stageKey key (stageData [] s)) (c := []) (k := key) rfl h rfl rfl
  change execEcbDecrypt [] key s = _
  rw [execEcbDecrypt, if_pos h, hunit, unpadUnit_of_empty hwbuf, andThen_refused]

/-- The mode driver refuses a key that is not 8 bytes, whatever the data (U8, log 19). -/
theorem exec_ecbEncrypt_of_badKey {key : List Byte} (h : key.length ≠ keySize) (d : List Byte) (s : State) :
    exec (.ecbEncrypt d key) s = .refused .unitKeyLength := if_neg h

theorem exec_ecbDecrypt_of_badKey {key : List Byte} (h : key.length ≠ keySize) (d : List Byte) (s : State) :
    exec (.ecbDecrypt d key) s = .refused .unitKeyLength := if_neg h

/-! ### The statements -/

/-- Settles O20, by the whole next state of `pad`; the corner cases are arithmetic. -/
theorem padWritesNRAndWBUF : Obligations.PadWritesNRAndWBUF := by
  rintro d s n rfl
  exact ⟨exec_pad d s, by omega, by omega, by omega, by omega⟩

/-- Settles O21, property by property; (e) because unpadding inverts padding. -/
theorem padProperties : Obligations.PadProperties := by
  refine ⟨?_, fun _ _ => padBytes_injective⟩
  rintro d n rfl
  have hblocks := padBytes_length_blocks d
  refine ⟨by omega, by omega, padBytes_length d, by omega, take_padBytes d, fun b hb => ?_, getLast?_padBytes d,
    by omega⟩
  rw [drop_padBytes] at hb
  exact List.eq_of_mem_replicate hb

/-- Settles O22: the pad length fills up the block and fits the byte that repeats it. -/
theorem generalPadNeedsBlockSize1To255 : Obligations.GeneralPadNeedsBlockSize1To255 := by
  refine fun bs d => ⟨fun h1 h255 => ?_, fun h => padWith_of_not_range h d, padWith_of_range (by decide) (by decide) d⟩
  obtain ⟨hpos, hle⟩ := padLength_bounds_of_pos h1 d.length
  refine ⟨_, padLength bs d.length, padWith_of_range h1 h255 d, rfl, hpos, hle, rfl, ?_, ?_⟩
  · rw [List.length_append, List.length_replicate, add_padLength_mod h1]
  · rw [List.getLastD_eq_getLast?, getLast?_append_replicate d hpos, Option.getD_some, toNat_ofNat_byte (by omega)]

/-- Settles O23: a last byte of 0 is the free choice, any other one removes as many bytes as there are up to it. -/
theorem unpadUncheckedTrustsTheLastByte : Obligations.UnpadUncheckedTrustsTheLastByte := by
  intro p s b hcheck hb
  refine ⟨_, exec_unpad_of_ok hcheck hb rfl, fun h1 _ => ?_, fun hlt => ?_, fun h0 => ?_⟩
  · exact if_neg (by omega)
  · rw [if_neg (by omega), Nat.sub_eq_zero_of_le (Nat.le_of_lt hlt), List.take_zero]
  · rw [if_pos h0]
    exact ite_eq_or_eq _ _ _

/-- Settles O24, by the two answers of the range test. -/
theorem unpadRangeChecksTheLastByte : Obligations.UnpadRangeChecksTheLastByte := fun _ _ _ hcheck hb =>
  ⟨fun hbad => exec_unpad_of_error hcheck hb (unpadBytes_range_of_bad _ hbad),
    fun h1 hn => exec_unpad_of_ok hcheck hb (unpadBytes_range_of_fits _ h1 hn)⟩

/-- Settles O25: the range test, and past it the comparison of the pad bytes. -/
theorem unpadFullChecksRangeThenEveryPadByte : Obligations.UnpadFullChecksRangeThenEveryPadByte := by
  intro p s b hcheck hb
  have hbyte : BitVec.ofNat 8 b.toNat = b := by rw [BitVec.ofNat_toNat, BitVec.setWidth_eq]
  refine ⟨fun hbad => exec_unpad_of_error hcheck hb (unpadBytes_full_of_bad _ hbad),
    fun h1 h8 hn ⟨x, hx, hdiffer⟩ => exec_unpad_of_error hcheck hb ?_,
    fun h1 h8 hn hall => exec_unpad_of_ok hcheck hb ?_⟩
  · rw [unpadBytes_full_of_fits _ h1 h8 hn, hbyte, if_neg fun hall => hdiffer (hall x hx)]
    rfl
  · rw [unpadBytes_full_of_fits _ h1 h8 hn, hbyte, if_pos hall]

/-- Settles O26: a sequence whose last `n` bytes are `n` is what stands before them and these. -/
theorem wellFormedPadsUnpadAlikeUnderEverySetting : Obligations.WellFormedPadsUnpadAlikeUnderEverySetting := by
  refine ⟨fun p n s h1 h8 hn hall => ?_, fun d => ?_⟩
  · have hpad : p.drop (p.length - n) = List.replicate n (BitVec.ofNat 8 n) :=
      List.eq_replicate_iff.2 ⟨by rw [List.length_drop]; omega, hall⟩
    have hunpad := exec_unpad_append_replicate (p.take (p.length - n)) h1 h8 s
    rwa [← hpad, List.take_append_drop] at hunpad
  · obtain ⟨h1, h8⟩ := padLength_bounds d.length
    refine ⟨_, h1, h8, by rw [padBytes_length]; omega, fun x hx => ?_⟩
    rw [padBytes_length, Nat.add_sub_cancel, drop_padBytes] at hx
    exact List.eq_of_mem_replicate hx

/-- Settles O27: `pad` leaves well-formed padding after the data. -/
theorem unpadInvertsPad : Obligations.UnpadInvertsPad := by
  intro d s u
  obtain ⟨h1, h8⟩ := padLength_bounds d.length
  obtain ⟨v, hv⟩ := exec_unpad_append_replicate d h1 h8 u
  exact ⟨padBytes d, _, v, exec_pad d s, rfl, hv⟩

/-- Settles O28. -/
theorem undefinedUnitCallsAreRefused : Obligations.UndefinedUnitCallsAreRefused := fun _ s =>
  ⟨exec_unpad_nil s, fun h => exec_ecbDecrypt_nil h s,
    fun h d => ⟨exec_ecbEncrypt_of_badKey h d s, exec_ecbDecrypt_of_badKey h d s⟩⟩

/-- Settles O29: `01` and `0202` are well-formed padding of one and two bytes. -/
theorem paddingChecksAreNoIntegrity : Obligations.PaddingChecksAreNoIntegrity := fun d s =>
  ⟨exec_unpad_append_replicate d (n := 1) (by decide) (by decide) s,
    exec_unpad_append_replicate d (n := 2) (by decide) (by decide) s⟩

end Sys2Proof.Machine
end

section
/-! Proofs about the mode driver (43_ecb_mode.md): a block through codec and transform, the transformed sequence block by
block and byte by byte, the block steps in any order, and the whole next states of `ecbEncrypt` and `ecbDecrypt`. -/

namespace Sys2Proof.Machine

open Host (Outcome)

/-! ### The blocks of a byte sequence -/

theorem length_block {l : List Byte} {i : Nat} (h : 8 * i + 8 ≤ l.length) : ((l.drop (8 * i)).take 8).length = 8 := by
  rw [List.length_take, List.length_drop]
  omega

theorem block_beyond {l : List Byte} {i : Nat} (h : l.length ≤ 8 * i) : (l.drop (8 * i)).take 8 = [] := by
  rw [List.drop_eq_nil_of_le h, List.take_nil]

/-- Byte `a` of a sequence is byte `a mod 8` of its block `a / 8`. -/
theorem getElem?_block (l : List Byte) (a : Nat) : ((l.drop (8 * (a / 8))).take 8)[a % 8]? = l[a]? := by
  rw [List.getElem?_take_of_lt (Nat.mod_lt a (by decide)), List.getElem?_drop, Nat.div_add_mod]

/-! ### One block through codec and transform (R120) -/

/-- The block step's conversion back gives the transformed block. -/
theorem intToBytes_transform (k : Word) (b : List Byte) :
    intToBytes (transform (toWord b) k).toNat 8 = some (blockBytes k b) := intToBytes_word _

/-- A transformed block is the byte-wise exclusive-or of block and key (41_block_transform.md R94). -/
theorem blockBytes_eq_zipWith {b key : List Byte} (hb : b.length = 8) (hkey : key.length = 8) :
    blockBytes (toWord key) b = List.zipWith (· ^^^ ·) b key :=
  Option.some.inj ((intToBytes_transform _ _).symm.trans (intToBytes_transform_toWord hb hkey))

/-- The block step undoes itself (41_block_transform.md R93 (a)). -/
theorem blockBytes_blockBytes (k : Word) {b : List Byte} (h : b.length = 8) : blockBytes k (blockBytes k b) = b := by
  have htwice := intToBytes_transform k (blockBytes k b)
  rw [toWord_of_intToBytes (intToBytes_transform k b), transform_transform, intToBytes_toWord h] at htwice
  exact (Option.some.inj htwice).symm

/-- Equal blocks and no others give equal transformed blocks (41_block_transform.md R93 (f)). -/
theorem blockBytes_inj (k : Word) {b c : List Byte} (hb : b.length = 8) (hc : c.length = 8) :
    blockBytes k b = blockBytes k c ↔ b = c := by
  refine ⟨fun h => ?_, congrArg _⟩
  rw [← blockBytes_blockBytes k hb, h, blockBytes_blockBytes k hc]

/-! ### The transformed sequence (R116, R122, R124) -/

/-- Block `i` of the transformed sequence is block `i` transformed. -/
theorem ecbBytes_block (k : Word) {n i : Nat} (l : List Byte) (h : i < n) :
    ((ecbBytes k n l).drop (8 * i)).take 8 = blockBytes k ((l.drop (8 * i)).take 8) := by
  induction n generalizing i l with
  | zero => cases h
  | succ n ih =>
    cases i with
    | zero => exact List.take_left' (blockBytes_length k _)
    | succ i =>
      have hblock : (blockBytes k (l.take blockSize)).length = 8 := blockBytes_length k _
      rw [ecbBytes, Nat.mul_add_one, Nat.add_comm, ← List.drop_drop, List.drop_left' hblock, ih _ (by omega),
        ← List.drop_drop, blockSize]

/-- Byte `a` of the transformed sequence stands in transformed block `a / 8`. -/
theorem getElem?_ecbBytes (k : Word) {n a : Nat} (l : List Byte) (h : a / 8 < n) :
    (ecbBytes k n l)[a]? = (blockBytes k ((l.drop (8 * (a / 8))).take 8))[a % 8]? := by
  rw [← getElem?_block, ecbBytes_block k l h]

/-- The byte-wise closed form (R124). -/
theorem getElem?_ecbBytes_toWord {l key : List Byte} {n a : Nat} (hkey : key.length = 8) (hl : l.length = 8 * n)
    (ha : a < l.length) :
    (ecbBytes (toWord key) n l)[a]? = some (l.getD a 0 ^^^ key.getD (a % 8) 0) := by
  have hmod : a % 8 < key.length := by omega
  rw [getElem?_ecbBytes _ l (by omega), blockBytes_eq_zipWith (length_block (by omega)) hkey, List.getElem?_zipWith,
    getElem?_block, List.getElem?_eq_getElem ha, List.getElem?_eq_getElem hmod, List.getD_eq_getElem _ _ ha,
    List.getD_eq_getElem _ _ hmod]

/-- Under one key, transforming a whole number of blocks twice gives them back. -/
theorem ecbBytes_ecbBytes (k : Word) {n : Nat} {l : List Byte} (hl : l.length = 8 * n) :
    ecbBytes k n (ecbBytes k n l) = l := by
  induction n generalizing l with
  | zero => exact (List.length_eq_zero_iff.1 hl).symm
  | succ n ih =>
    have hblock : (blockBytes k (l.take blockSize)).length = blockSize := blockBytes_length k _
    have hhead : (l.take blockSize).length = 8 := by rw [List.length_take, blockSize]; omega
    have htail : (l.drop blockSize).length = 8 * n := by rw [List.length_drop, blockSize]; omega
    rw [ecbBytes, ecbBytes, List.take_left' hblock, List.drop_left' hblock, blockBytes_blockBytes k hhead, ih htail,
      List.take_append_drop]

/-- Two transformed blocks are equal exactly when the blocks are (R125 (a)). -/
theorem ecbBytes_block_eq_iff (k : Word) {n i j : Nat} {l m : List Byte} (hl : l.length = 8 * n)
    (hm : m.length = 8 * n) (hi : i < n) (hj : j < n) :
    ((ecbBytes k n l).drop (8 * i)).take 8 = ((ecbBytes k n m).drop (8 * j)).take 8 ↔
      (l.drop (8 * i)).take 8 = (m.drop (8 * j)).take 8 := by
  rw [ecbBytes_block k l hi, ecbBytes_block k m hj,
    blockBytes_inj k (length_block (by omega)) (length_block (by omega))]

/-- In one place, beyond the last block too, two transformed sequences agree exactly when the sequences do (R125 (c)). -/
theorem ecbBytes_same_block_eq_iff (k : Word) {n : Nat} {l m : List Byte} (hl : l.length = 8 * n)
    (hm : m.length = 8 * n) (i : Nat) :
    ((ecbBytes k n l).drop (8 * i)).take 8 = ((ecbBytes k n m).drop (8 * i)).take 8 ↔
      (l.drop (8 * i)).take 8 = (m.drop (8 * i)).take 8 := by
  by_cases hi : i < n
  · exact ecbBytes_block_eq_iff k hl hm hi hi
  · have hbeyond : ∀ {p : List Byte}, p.length = 8 * n → (p.drop (8 * i)).take 8 = [] :=
      fun hp => block_beyond (by omega)
    simp only [hbeyond hl, hbeyond hm, hbeyond (ecbBytes_length k n _)]

/-! ### Block steps in any order (R120, R123) -/

/-- A block step writes the transformed block into `dst`, and beside it only what `BlockFrame` leaves open. -/
theorem blockStepOn_next {s : State} {src dst : Space} {l : List Byte} (hs : s.space src = Memory.ofBytes l)
    (lane i : Nat) (h : 8 * i + 8 ≤ l.length) :
    ∃ t, blockStepOn lane src dst i s = .next t ∧ BlockFrame dst s t ∧
      t.space dst = (s.space dst).writeBytes (8 * i) (blockBytes s.keyr ((l.drop (8 * i)).take 8)) := by
  have hstep := blockStepOn_eq (dst := dst) hs lane i h
  exact ⟨_, hstep, (blockStepOn_frame hstep).1, by rw [memWrite_space_same, setYR_space, setXR_space]⟩

/-- After a schedule, the addresses of the blocks it lists hold the transformed blocks, and the others what they held. -/
theorem runSchedule_next {src dst : Space} {l : List Byte} {n : Nat} (hne : src ≠ dst) (hl : l.length = 8 * n)
    (order : List (Nat × Nat)) {s : State} (hs : s.space src = Memory.ofBytes l) (hwf : (s.space dst).wf = true)
    (horder : ∀ i ∈ order.map Prod.snd, i < n) :
    ∃ t, runSchedule src dst order s = .next t ∧ (t.space dst).wf = true ∧
      ∀ a, (t.space dst).readByte a =
        if a / 8 ∈ order.map Prod.snd then (ecbBytes s.keyr n l)[a]? else (s.space dst).readByte a := by
  induction order generalizing s with
  | nil => exact ⟨s, rfl, hwf, fun a => by simp⟩
  | cons step rest ih =>
    obtain ⟨lane, i⟩ := step
    simp only [List.map_cons, List.forall_mem_cons] at horder
    obtain ⟨hi, hrest⟩ := horder
    obtain ⟨u, hu, hframe, hdst⟩ := blockStepOn_next (dst := dst) hs lane i (by omega)
    obtain ⟨t, ht, htwf, hread⟩ := ih ((hframe.spaces src hne).trans hs) (by rw [hdst]; exact writeBytes_wf _ _ hwf) hrest
    refine ⟨t, by rw [runSchedule, hu, andThen_next, ht], htwf, fun a => ?_⟩
    rw [hread, hframe.keyr, hdst, readByte_writeBytes, blockBytes_length, List.map_cons]
    by_cases ha : a / 8 = i
    · subst ha
      have hbyte : a - 8 * (a / 8) = a % 8 := by omega
      rw [if_pos (show 8 * (a / 8) ≤ a ∧ a < 8 * (a / 8) + 8 by omega), if_pos List.mem_cons_self, hbyte,
        ← getElem?_ecbBytes _ l hi, ite_self]
    · rw [if_neg (show ¬ (8 * i ≤ a ∧ a < 8 * i + 8) by omega)]
      simp only [List.mem_cons, ha, false_or]

/-- A schedule that lists each of `n` blocks once leaves the transformed sequence in an empty destination. -/
theorem runSchedule_of_perm {src dst : Space} {s : State} {l : List Byte} {n : Nat} {order : List (Nat × Nat)}
    (hne : src ≠ dst) (hs : s.space src = Memory.ofBytes l) (hl : l.length = 8 * n) (hdst : s.space dst = [])
    (hperm : (order.map Prod.snd).Perm (List.range n)) :
    ∃ t, runSchedule src dst order s = .next t ∧ t.space dst = Memory.ofBytes (ecbBytes s.keyr n l) := by
  have hmem : ∀ i, i ∈ order.map Prod.snd ↔ i < n := fun i => hperm.mem_iff.trans List.mem_range
  obtain ⟨t, ht, hwf, hread⟩ := runSchedule_next hne hl order hs (by rw [hdst]; rfl) fun i hi => (hmem i).1 hi
  refine ⟨t, ht, memory_ext hwf (ofBytes_wf _) fun a => ?_⟩
  rw [hread, readByte_ofBytes, hdst]
  by_cases ha : a / 8 < n
  · rw [if_pos ((hmem _).2 ha)]
  · have hbeyond : (ecbBytes s.keyr n l).length ≤ a := by rw [ecbBytes_length]; omega
    rw [if_neg (mt (hmem _).1 ha), List.getElem?_eq_none hbeyond, Memory.readByte]

/-! ### Whole next states -/

/-- A state framed by block steps is the one before them but for `dst`, `IDX` and the lanes' registers. -/
theorem BlockFrame.exists_eq {dst : Space} {s t : State} {i : Nat} {m : Memory} (h : BlockFrame dst s t)
    (hidx : t.idx = i) (hm : t.space dst = m) :
    ∃ x y ls, t = { s.setSpace dst m with idx := i, xr := x, yr := y, lanes := ls } := by
  have hspace : ∀ T, t.space T = (s.setSpace dst m).space T := fun T => by
    by_cases hT : T = dst
    · subst hT; rw [hm, space_setSpace_same]
    · rw [h.spaces T hT, space_setSpace_other s m hT]
  refine ⟨t.xr, t.yr, t.lanes, ?_⟩
  ext1
  case kbuf => exact hspace .kbuf
  case dbuf => exact hspace .dbuf
  case wbuf => exact hspace .wbuf
  case obuf => exact hspace .obuf
  all_goals simp [h.params, h.phase, h.op, h.klen, h.dlen, h.keyr, h.nr, hidx, h.nblk, h.st, h.ret, h.todo,
    h.responses, h.draws]

/-- `ecbEncrypt` over the state ends with `OBUF` holding what the unit-level function returns. -/
theorem exec_ecbEncrypt_of_unit {d key out : List Byte} {s t : State} (hkey : key.length = keySize)
    (h : ecbEncryptUnit (stageKey key (stageData d s)) = .next t) (hout : t.obuf = Memory.ofBytes out) :
    exec (.ecbEncrypt d key) s = .next { t with ret := .bytes out } := by
  change execEcbEncrypt d key s = _
  rw [execEcbEncrypt, if_pos hkey, h, andThen_next, hout, bytes_ofBytes]

/-- `ecbEncrypt` with an 8-byte key: the whole next state, but for the lanes' registers where there is more than one lane
(R116, R121). -/
theorem exec_ecbEncrypt_next {key : List Byte} (hkey : key.length = 8) (d : List Byte) (s : State) :
    ∃ t, exec (.ecbEncrypt d key) s = .next t ∧
      t = { s with
        dbuf := Memory.ofBytes d, dlen := d.length, kbuf := Memory.ofBytes key, klen := key.length
        keyr := toWord key, nr := BitVec.ofNat 8 (8 - d.length % 8), wbuf := Memory.ofBytes (padBytes d)
        obuf := Memory.ofBytes (ecbBytes (toWord key) (d.length / 8 + 1) (padBytes d))
        nblk := d.length / 8 + 1, idx := d.length / 8 + 1
        ret := .bytes (ecbBytes (toWord key) (d.length / 8 + 1) (padBytes d))
        xr := t.xr, yr := t.yr, lanes := t.lanes } ∧
      t.lanes.length = s.lanes.length ∧
      (s.params.nlanes = 1 → t.xr = toWord ((padBytes d).drop (8 * (d.length / 8))) ∧
        t.yr = transform t.xr (toWord key) ∧ t.lanes = s.lanes) := by
  obtain ⟨u, hu, hidx, hobuf, hframe, hone⟩ :=
    ecbEncryptUnit_next (s := stageKey key (stageData d s)) rfl hkey rfl
  obtain ⟨x, y, ls, rfl⟩ := hframe.exists_eq hidx hobuf
  refine ⟨_, exec_ecbEncrypt_of_unit hkey hu hobuf, rfl, hframe.lanes, fun h1 => ?_⟩
  obtain ⟨hlanes, hx, hy⟩ := hone h1
  exact ⟨hx, hy, hlanes⟩

/-- What `ecbDecrypt` over the state ends with is what the unit-level function returns. -/
theorem exec_ecbDecrypt_of_unit {c key : List Byte} {s t : State} {failure : Option Status} (hkey : key.length = keySize)
    (h : ecbDecryptUnit (stageKey key (stageData c s)) = .next (t, failure)) :
    exec (.ecbDecrypt c key) s = .next { t with ret := returnOf t failure, draws := s.draws + 1 } := by
  change execEcbDecrypt c key s = _
  rw [execEcbDecrypt, if_pos hkey, h, andThen_next]

/-- `unpad` writes `NR`, and by the rule of the setting either `OBUF` or `ST` (42_padding.md R103). -/
theorem unpadUnit_next {s : State} {p : List Byte} (hp : s.wbuf = Memory.ofBytes p) (hne : p ≠ []) :
    ∃ o st failure, unpadUnit s = .next ({ s with nr := p.getLastD 0, obuf := o, st := st }, failure) ∧
      (∀ d, unpadBytes s.params.padCheck (Config.unpadZeroKeepsAll s.draws) p (p.getLastD 0).toNat = .ok d →
        o = Memory.ofBytes d ∧ st = s.st ∧ failure = none) ∧
      (∀ e, unpadBytes s.params.padCheck (Config.unpadZeroKeepsAll s.draws) p (p.getLastD 0).toNat = .error e →
        o = s.obuf ∧ st = e ∧ failure = some e) := by
  have h := unpadUnit_eq hp hne
  cases hres : unpadBytes s.params.padCheck (Config.unpadZeroKeepsAll s.draws) p (p.getLastD 0).toNat with
  | ok d =>
    rw [hres] at h
    refine ⟨_, _, _, h, fun e he => ?_, nofun⟩
    obtain rfl := Except.ok.inj he
    exact ⟨rfl, rfl, rfl⟩
  | error st =>
    rw [hres] at h
    refine ⟨_, _, _, h, nofun, fun e he => ?_⟩
    obtain rfl := Except.error.inj he
    exact ⟨rfl, rfl, rfl⟩

/-- `ecbDecrypt` of a positive number of blocks with an 8-byte key: the whole next state, but for the lanes' registers
where there is more than one lane (R117, R121). -/
theorem exec_ecbDecrypt_next {c key : List Byte} {n : Nat} (hkey : key.length = 8) (hc : c.length = 8 * (n + 1))
    (s : State) {w : List Byte} (hw : w = ecbBytes (toWord key) (n + 1) c) :
    ∃ t, exec (.ecbDecrypt c key) s = .next t ∧
      t = { s with
        dbuf := Memory.ofBytes c, dlen := c.length, kbuf := Memory.ofBytes key, klen := key.length
        keyr := toWord key, nr := w.getLastD 0, wbuf := Memory.ofBytes w, nblk := n + 1, idx := n + 1
        draws := s.draws + 1, obuf := t.obuf, st := t.st, ret := t.ret, xr := t.xr, yr := t.yr, lanes := t.lanes } ∧
      t.lanes.length = s.lanes.length ∧
      (∀ d, unpadBytes s.params.padCheck (Config.unpadZeroKeepsAll s.draws) w (w.getLastD 0).toNat = .ok d →
        t.obuf = Memory.ofBytes d ∧ t.ret = .bytes d ∧ t.st = s.st) ∧
      (∀ e, unpadBytes s.params.padCheck (Config.unpadZeroKeepsAll s.draws) w (w.getLastD 0).toNat = .error e →
        t.obuf = s.obuf ∧ t.ret = .failed e ∧ t.st = e) ∧
      (s.params.nlanes = 1 → t.xr = toWord (c.drop (8 * n)) ∧ t.yr = transform t.xr (toWord key) ∧
        t.lanes = s.lanes) := by
  have hn : c.length / 8 = n + 1 := by omega
  have hne : w ≠ [] := List.ne_nil_of_length_pos (by rw [hw, ecbBytes_length]; omega)
  obtain ⟨u, hu, hidx, hwbuf, hframe, hone⟩ :=
    ecbDecryptUnit_blocks (s := stageKey key (stageData c s)) (c := c) rfl hkey rfl (by omega)
  rw [hn] at hidx hwbuf hframe hone
  rw [← hw] at hwbuf
  obtain ⟨x, y, ls, rfl⟩ := hframe.exists_eq hidx hwbuf
  obtain ⟨o, st, failure, hunpad, hok, herror⟩ := unpadUnit_next hwbuf hne
  refine ⟨_, exec_ecbDecrypt_of_unit hkey (hu.trans hunpad), rfl, hframe.lanes, fun d hd => ?_, fun e he => ?_,
    fun h1 => ?_⟩
  · obtain ⟨rfl, rfl, rfl⟩ := hok d hd
    exact ⟨rfl, congrArg Return.bytes (bytes_ofBytes d), rfl⟩
  · obtain ⟨rfl, rfl, rfl⟩ := herror e he
    exact ⟨rfl, rfl, rfl⟩
  · obtain ⟨hlanes, hblock⟩ := hone h1
    obtain ⟨hx, hy⟩ := hblock (Nat.succ_pos n)
    exact ⟨hx, hy, hlanes⟩

/-- A positive whole number of blocks. -/
theorem exists_length_eq_blocks {c : List Byte} (hmod : c.length % 8 = 0) (hne : c ≠ []) :
    ∃ n, c.length = 8 * (n + 1) := by
  have hpos := List.length_pos_of_ne_nil hne
  exact ⟨c.length / 8 - 1, by omega⟩

/-- `ecbDecrypt` of a misaligned length: the whole next state (R118). -/
theorem exec_ecbDecrypt_of_misaligned {c key : List Byte} (hkey : key.length = 8) (hc : c.length % 8 ≠ 0) (s : State) :
    exec (.ecbDecrypt c key) s = .next
      { s with
        dbuf := Memory.ofBytes c, dlen := c.length, kbuf := Memory.ofBytes key, klen := key.length
        st := invalidArgument causeDataLength, ret := .failed (invalidArgument causeDataLength)
        draws := s.draws + 1 } := by
  have hsize : (stageKey key (stageData c s)).dbuf.size % blockSize ≠ 0 := by
    change (Memory.ofBytes c).size % 8 ≠ 0
    rwa [size_ofBytes]
  exact exec_ecbDecrypt_of_unit hkey (ecbDecryptUnit_misaligned hsize)

/-! ### What one run tells -/

/-- After `ecbEncrypt`, `OBUF` is the transformed blocks of the padded data. -/
theorem obuf_of_exec_ecbEncrypt {d key : List Byte} {s t : State} (hkey : key.length = 8)
    (h : exec (.ecbEncrypt d key) s = .next t) :
    t.obuf = Memory.ofBytes (ecbBytes (toWord key) (d.length / 8 + 1) (padBytes d)) := by
  obtain ⟨u, hu, hstate, -⟩ := exec_ecbEncrypt_next hkey d s
  obtain rfl := Outcome.next.inj (h.symm.trans hu)
  exact congrArg State.obuf hstate

/-- After `ecbDecrypt` of whole blocks, `WBUF` is the transformed blocks. -/
theorem wbuf_of_exec_ecbDecrypt {c key : List Byte} {s t : State} {n : Nat} (hkey : key.length = 8)
    (hc : c.length = 8 * (n + 1)) (h : exec (.ecbDecrypt c key) s = .next t) :
    t.wbuf = Memory.ofBytes (ecbBytes (toWord key) (n + 1) c) := by
  obtain ⟨u, hu, hstate, -⟩ := exec_ecbDecrypt_next hkey hc s rfl
  obtain rfl := Outcome.next.inj (h.symm.trans hu)
  exact congrArg State.wbuf hstate

/-- `ecbDecrypt` returns bytes only for a positive whole number of blocks (R118, R119). -/
theorem length_of_exec_ecbDecrypt_bytes {c key d : List Byte} {s t : State} (hkey : key.length = 8)
    (h : exec (.ecbDecrypt c key) s = .next t) (hret : t.ret = .bytes d) : ∃ n, c.length = 8 * (n + 1) := by
  refine exists_length_eq_blocks ?_ ?_
  · by_contra hmod
    rw [exec_ecbDecrypt_of_misaligned hkey hmod] at h
    cases h
    cases hret
  · rintro rfl
    rw [exec_ecbDecrypt_nil hkey] at h
    cases h

/-- Under FULL a result is the sequence without its last 1 to 8 bytes (42_padding.md R108). -/
theorem unpadBytes_full_eq_ok {keepAll : Bool} {p d : List Byte} {n : Nat}
    (h : unpadBytes .full keepAll p n = .ok d) : 1 ≤ n ∧ n ≤ 8 ∧ n ≤ p.length ∧ d = p.take (p.length - n) := by
  by_cases hbad : n = 0 ∨ 8 < n ∨ p.length < n
  · rw [unpadBytes_full_of_bad keepAll hbad] at h
    cases h
  · obtain ⟨h1, h8, hn⟩ : 1 ≤ n ∧ n ≤ 8 ∧ n ≤ p.length := by omega
    rw [unpadBytes_full_of_fits keepAll h1 h8 hn] at h
    split at h
    · exact ⟨h1, h8, hn, (Except.ok.inj h).symm⟩
    · cases h

/-- Under FULL `ecbDecrypt` returns its input's length less `NR`, which lies in 1..8 (R126). -/
theorem length_of_exec_ecbDecrypt_full {c key d : List Byte} {s t : State} {n : Nat} (hkey : key.length = 8)
    (hc : c.length = 8 * (n + 1)) (h : exec (.ecbDecrypt c key) s = .next t) (hret : t.ret = .bytes d)
    (hcheck : s.params.padCheck = .full) :
    1 ≤ t.nr.toNat ∧ t.nr.toNat ≤ 8 ∧ d.length = c.length - t.nr.toNat := by
  obtain ⟨w, hw⟩ : ∃ w, w = ecbBytes (toWord key) (n + 1) c := ⟨_, rfl⟩
  have hlen : w.length = c.length := by rw [hw, ecbBytes_length, hc]
  obtain ⟨u, hu, hstate, -, hok, herror, -⟩ := exec_ecbDecrypt_next hkey hc s hw
  obtain rfl := Outcome.next.inj (h.symm.trans hu)
  have hnr : t.nr = w.getLastD 0 := congrArg State.nr hstate
  rw [← hnr, hcheck] at hok herror
  cases hres : unpadBytes .full (Config.unpadZeroKeepsAll s.draws) w t.nr.toNat with
  | ok e =>
    obtain ⟨-, hbytes, -⟩ := hok e hres
    obtain rfl := Return.bytes.inj (hret.symm.trans hbytes)
    obtain ⟨h1, h8, hn, rfl⟩ := unpadBytes_full_eq_ok hres
    exact ⟨h1, h8, by rw [List.length_take]; omega⟩
  | error st =>
    obtain ⟨-, hfailed, -⟩ := herror st hres
    rw [hret] at hfailed
    cases hfailed

/-- `ecbDecrypt` of what `ecbEncrypt` makes of the data returns the data, under every setting (R126). -/
theorem exec_ecbDecrypt_ecbBytes {key : List Byte} (hkey : key.length = 8) (d : List Byte) (s : State) :
    ∃ t, exec (.ecbDecrypt (ecbBytes (toWord key) (d.length / 8 + 1) (padBytes d)) key) s = .next t ∧
      t.ret = .bytes d := by
  have hpad := (ecbBytes_ecbBytes (toWord key) (padBytes_length_blocks d)).symm
  obtain ⟨t, ht, -, -, hok, -⟩ := exec_ecbDecrypt_next hkey (ecbBytes_length _ _ _) s hpad
  obtain ⟨-, hret, -⟩ := hok d (unpadBytes_padBytes _ _ d)
  exact ⟨t, ht, hret⟩

/-! ### The statements -/

/-- Settles O30, by the state a block step answers and what reads see after a write. -/
theorem blockStepWritesOneBlock : Obligations.BlockStepWritesOneBlock := by
  intro lane i src dst s l hs hl
  refine ⟨_, _, _, _, rfl, rfl, intToBytes_transform _ _, blockStepOn_eq hs lane i hl, ?_, fun j hj => ?_,
    fun a ha => ?_⟩
  · rw [memWrite_space_same]
    rfl
  · rw [memWrite_space_same, readByte_writeBytes, blockBytes_length, if_pos (by omega), Nat.add_sub_cancel_left]
  · rw [memWrite_space_same, readByte_writeBytes, blockBytes_length, if_neg (by omega), setYR_space, setXR_space]

/-- Settles O31: what any schedule of the `n` blocks leaves, for the two schedules. -/
theorem blockOrderDoesNotMatter : Obligations.BlockOrderDoesNotMatter := by
  intro src dst s l n order hne hs hl hdst hperm
  have hascending : (((List.range n).map fun i => (0, i)).map Prod.snd).Perm (List.range n) := by
    simp [Function.comp_def]
  obtain ⟨t, ht, htdst⟩ := runSchedule_of_perm hne hs hl hdst hperm
  obtain ⟨u, hu, hudst⟩ := runSchedule_of_perm hne hs hl hdst hascending
  exact ⟨t, u, ht, hu, htdst.trans hudst.symm, htdst⟩

/-- Settles O32, by the whole next state of `ecbEncrypt` and the blocks of its output. -/
theorem ecbEncryptTransformsThePaddedBlocks : Obligations.EcbEncryptTransformsThePaddedBlocks := by
  intro d key s hkey
  obtain ⟨t, ht, hstate, hlanes, hone⟩ := exec_ecbEncrypt_next hkey d s
  refine ⟨t, _, ht, ecbBytes_length _ _ _, fun i hi => ?_, hstate, hlanes, hone⟩
  rw [ecbBytes_block _ _ hi, intToBytes_transform]

/-- Settles O33, by the whole next state of `ecbDecrypt` and the blocks of its work buffer. -/
theorem ecbDecryptTransformsThenUnpads : Obligations.EcbDecryptTransformsThenUnpads := by
  intro c key s n hkey hc
  obtain ⟨t, ht, hstate, hlanes, hok, herror, hone⟩ := exec_ecbDecrypt_next hkey hc s rfl
  refine ⟨t, _, ht, (ecbBytes_length _ _ _).trans hc.symm, fun i hi => ?_, hstate, hlanes, ?_, hone⟩
  · rw [ecbBytes_block _ _ hi, intToBytes_transform]
  · split
    · exact hok _ ‹_›
    · exact herror _ ‹_›

/-- Settles O35, by the closed form of the transformed sequence. -/
theorem ecbClosedForm : Obligations.EcbClosedForm := by
  refine ⟨fun d key s hkey => ?_, fun c key s hkey hmod hne => ?_⟩
  · have hlen := padBytes_length_blocks d
    obtain ⟨t, ht, -⟩ := exec_ecbEncrypt_next hkey d s
    refine ⟨t, ht, ?_, fun a ha => ?_⟩
    · rw [obuf_of_exec_ecbEncrypt hkey ht, size_ofBytes, ecbBytes_length, hlen]
    · rw [obuf_of_exec_ecbEncrypt hkey ht, readByte_ofBytes, getElem?_ecbBytes_toWord hkey hlen ha]
  · obtain ⟨n, hlen⟩ := exists_length_eq_blocks hmod hne
    obtain ⟨t, ht, -⟩ := exec_ecbDecrypt_next hkey hlen s rfl
    refine ⟨t, ht, ?_, fun a ha => ?_⟩
    · rw [wbuf_of_exec_ecbDecrypt hkey hlen ht, size_ofBytes, ecbBytes_length, hlen]
    · rw [wbuf_of_exec_ecbDecrypt hkey hlen ht, readByte_ofBytes, getElem?_ecbBytes_toWord hkey hlen ha]

/-- Settles O36: equality of blocks passes through the transform both ways. -/
theorem ecbKeepsBlockPatterns : Obligations.EcbKeepsBlockPatterns := by
  refine ⟨fun d key s t i j hkey ht hi hj => ?_, fun c e key s t u i hkey hlen ht hu hmod hne hsame => ?_⟩
  · have hpad := padBytes_length_blocks d
    rw [obuf_of_exec_ecbEncrypt hkey ht, bytes_ofBytes]
    exact ecbBytes_block_eq_iff _ hpad hpad hi hj
  · obtain ⟨n, hc⟩ := exists_length_eq_blocks hmod hne
    have he := hlen.symm.trans hc
    have hiff := ecbBytes_same_block_eq_iff (toWord key) hc he
    rw [wbuf_of_exec_ecbDecrypt hkey hc ht, wbuf_of_exec_ecbDecrypt hkey he hu, bytes_ofBytes, bytes_ofBytes]
    exact ⟨fun j hj => (hiff j).2 (hsame j hj), mt (hiff i).1⟩

/-- Settles O50: the ciphertext is the padded data transformed, and under FULL `NR` lies in 1..8. -/
theorem ecbLengthsAndRoundTrip : Obligations.EcbLengthsAndRoundTrip := by
  refine ⟨fun d key s u hkey => ?_, fun c key d s t hkey ht hret hcheck => ?_⟩
  · obtain ⟨t, ht, hstate, -⟩ := exec_ecbEncrypt_next hkey d s
    obtain ⟨v, hv, hret⟩ := exec_ecbDecrypt_ecbBytes hkey d u
    refine ⟨t, v, _, ht, congrArg State.ret hstate, ?_, ?_, ?_, hv, hret⟩ <;> rw [ecbBytes_length] <;> omega
  · obtain ⟨n, hc⟩ := length_of_exec_ecbDecrypt_bytes hkey ht hret
    obtain ⟨h1, h8, hlen⟩ := length_of_exec_ecbDecrypt_full hkey hc ht hret hcheck
    exact ⟨hlen, by omega, by omega⟩

/-- Settles O34, by the whole next state on a misaligned length. -/
theorem ecbDecryptRejectsMisalignedLengths : Obligations.EcbDecryptRejectsMisalignedLengths :=
  fun _ _ s hkey hc => exec_ecbDecrypt_of_misaligned hkey hc s

end Sys2Proof.Machine
end

section
/-! Proofs about the commands (44_commands.md): what each answers, by its lengths and by its bytes, the round trips, and
the two steps of an accepted command. -/

namespace Sys2Proof.Machine

open Host (Outcome)

/-! ### Commands and their answers -/

/-- A command that can run ends in the answer of the big-step description (10_state.md R32). -/
theorem exec_of_answer {i : Instr} {c : Cmd} {s : State} {r : Response} (he : encode i = some c) (hs : s.ready c)
    (hr : answer s.params.padCheck (Config.unpadZeroKeepsAll s.draws) i = some r) :
    exec i s = .next (s.answerWith r) := by
  obtain ⟨q, hq, hexec⟩ := exec_of_ready he hs
  obtain rfl := Option.some.inj (hr.symm.trans hq)
  exact hexec

theorem answers_of_answer {i : Instr} {c : Cmd} {s : State} {r : Response} (he : encode i = some c) (hs : s.ready c)
    (hr : answer s.params.padCheck (Config.unpadZeroKeepsAll s.draws) i = some r) : s.Answers i r :=
  ⟨_, exec_of_answer he hs hr, rfl, rfl⟩

/-- A command answers nothing else. -/
theorem answer_of_answers {i : Instr} {c : Cmd} {s : State} {r : Response} (he : encode i = some c)
    (h : s.Answers i r) : answer s.params.padCheck (Config.unpadZeroKeepsAll s.draws) i = some r := by
  obtain ⟨t, hexec, -, hresponses⟩ := h
  by_cases hs : s.ready c
  · obtain ⟨q, hq, hrun⟩ := exec_of_ready he hs
    obtain rfl := Outcome.next.inj (hexec.symm.trans hrun)
    have hqr : s.responses ++ [q] = s.responses ++ [r] := hresponses
    rw [hq, List.singleton_inj.1 (List.append_cancel_left hqr)]
  · rw [exec_of_not_ready he hs] at hexec
    cases hexec

theorem answer_of_exec {i : Instr} {c : Cmd} {s : State} {r : Response} (he : encode i = some c)
    (h : exec i s = .next (s.answerWith r)) :
    answer s.params.padCheck (Config.unpadZeroKeepsAll s.draws) i = some r :=
  answer_of_answers he ⟨_, h, rfl, rfl⟩

/-! ### Length violations (60_exceptions.md R151, R152, R157) -/

/-- Is the data length refused by the command of this operation code? -/
def dataLengthBad (op : BitVec 2) (dlen : Nat) : Bool :=
  if op = opEncryptBytes then false
  else if op = opDecryptBytes then cipherLengthBad dlen
  else blockLengthBad dlen

/-- The length flags of a command, which its operation code and its two length fields decide. -/
def lengthFlags (c : Cmd) : BitVec 4 := lengthCause (keyLengthBad c.klen) (dataLengthBad c.op c.dlen)

theorem keyLengthBad_of_ne {n : Nat} (h : n ≠ 8) : keyLengthBad n = true := decide_eq_true h

theorem keyLengthBad_of_eq {n : Nat} (h : n = 8) : keyLengthBad n = false := (keyLengthBad_eq_false_iff n).2 h

theorem blockLengthBad_of_ne {n : Nat} (h : n ≠ 8) : blockLengthBad n = true := decide_eq_true h

theorem blockLengthBad_of_eq {n : Nat} (h : n = 8) : blockLengthBad n = false := (blockLengthBad_eq_false_iff n).2 h

theorem cipherLengthBad_length_eq_false_iff (c : List Byte) :
    cipherLengthBad c.length = false ↔ c ≠ [] ∧ c.length % 8 = 0 :=
  (cipherLengthBad_eq_false_iff _).trans (and_congr_left' (not_congr List.length_eq_zero_iff))

theorem cipherLengthBad_of_not_blocks {c : List Byte} (h : c = [] ∨ c.length % 8 ≠ 0) :
    cipherLengthBad c.length = true := by
  rw [← Bool.not_eq_false, cipherLengthBad_length_eq_false_iff, not_and_or, not_not]
  exact h

/-- A command with a length flag set answers INVALID_ARGUMENT with its flags (44_commands.md R130). -/
theorem answer_of_lengthFlags (check : PadCheck) (keepAll : Bool) {i : Instr} {c : Cmd} (he : encode i = some c)
    (h : lengthFlags c ≠ 0) :
    answer check keepAll i = some (errorResponse (invalidArgument (lengthFlags c))) := by
  cases i with
  | encryptBlock d k => cases he; exact congrArg some (if_pos h)
  | decryptBlock d k => cases he; exact congrArg some (if_pos h)
  | encryptBytes d k => cases he; exact congrArg some (if_pos h)
  | decryptBytes d k => cases he; exact congrArg some (if_pos h)
  | bytesToInt | intToBytes | transform | pad | unpad | ecbEncrypt | ecbDecrypt => cases he

theorem exec_of_badLengths (keyBad dataBad : Bool) {i : Instr} {c : Cmd} {s : State} (he : encode i = some c)
    (hs : s.ready c) (hk : keyLengthBad c.klen = keyBad) (hd : dataLengthBad c.op c.dlen = dataBad)
    (hbad : lengthCause keyBad dataBad ≠ 0) :
    exec i s = .next (s.answerWith (errorResponse (invalidArgument (lengthCause keyBad dataBad)))) := by
  subst hk hd
  exact exec_of_answer he hs (answer_of_lengthFlags _ _ he hbad)

/-! ### Answers to good lengths -/

theorem blockAnswer_of_lengths {d key : List Byte} (hkey : key.length = 8) (hd : d.length = 8) :
    blockAnswer d key = { cls := .ok, cause := 0, olen := 8, out := blockBytes (toWord key) d } := by
  have hok : blockAnswer d key = okResponse (blockBytes (toWord key) d) :=
    if_neg (not_not.2 ((lengthCause_eq_zero_iff _ _).2 ⟨keyLengthBad_of_eq hkey, blockLengthBad_of_eq hd⟩))
  rw [hok, okResponse, blockBytes_length]

/-- A block command answers OK for good lengths only. -/
theorem lengths_of_blockAnswer_ok {d key out : List Byte}
    (h : blockAnswer d key = { cls := .ok, cause := 0, olen := 8, out := out }) :
    key.length = 8 ∧ d.length = 8 ∧ out = blockBytes (toWord key) d := by
  by_cases hflags : lengthCause (keyLengthBad key.length) (blockLengthBad d.length) = 0
  · obtain ⟨hk, hd⟩ := (lengthCause_eq_zero_iff _ _).1 hflags
    rw [keyLengthBad_eq_false_iff] at hk
    rw [blockLengthBad_eq_false_iff] at hd
    rw [blockAnswer_of_lengths hk hd] at h
    exact ⟨hk, hd, (congrArg Response.out h).symm⟩
  · have herror : blockAnswer d key = errorResponse _ := if_pos hflags
    rw [herror] at h
    cases h

theorem encryptBytesAnswer_of_lengths {key : List Byte} (hkey : key.length = 8) (d : List Byte) :
    encryptBytesAnswer d key = okResponse (ecbBytes (toWord key) (d.length / 8 + 1) (padBytes d)) := by
  have hblocks : (padBytes d).length / blockSize = d.length / 8 + 1 := by
    rw [padBytes_length_blocks, blockSize]; omega
  rw [← hblocks]
  exact if_neg (not_not.2 ((lengthCause_eq_zero_iff _ _).2 ⟨keyLengthBad_of_eq hkey, rfl⟩))

/-- The response to what `unpad` gives: its bytes, or its failure raised (44_commands.md R134). -/
def unpadResponse : Except Status (List Byte) → Response
  | .ok d => okResponse d
  | .error st => errorResponse st

theorem decryptBytesAnswer_of_lengths {c key : List Byte} {n : Nat} (check : PadCheck) (keepAll : Bool)
    (hkey : key.length = 8) (hc : c.length = 8 * (n + 1)) {w : List Byte} (hw : w = ecbBytes (toWord key) (n + 1) c) :
    decryptBytesAnswer check keepAll c key = unpadResponse (unpadBytes check keepAll w (w.getLastD 0).toNat) := by
  have hflags : lengthCause (keyLengthBad key.length) (cipherLengthBad c.length) = 0 :=
    (lengthCause_eq_zero_iff _ _).2
      ⟨keyLengthBad_of_eq hkey, (cipherLengthBad_eq_false_iff _).2 ⟨by omega, by omega⟩⟩
  have hn : c.length / blockSize = n + 1 := by rw [hc, blockSize]; omega
  simp only [decryptBytesAnswer, hflags, ne_eq, not_true_eq_false, if_false, hn, ← hw]
  cases unpadBytes check keepAll w (w.getLastD 0).toNat <;> rfl

/-- A response INVALID_ARGUMENT comes of a length flag: the datapath raises pad errors only (60_exceptions.md R157). -/
theorem lengthFlags_ne_zero {check : PadCheck} {keepAll : Bool} {i : Instr} {c : Cmd} {r : Response}
    (he : encode i = some c) (hr : answer check keepAll i = some r) (hcls : r.cls = .invalidArgument) :
    lengthFlags c ≠ 0 := by
  intro hflags
  obtain ⟨hk, hd⟩ := (lengthCause_eq_zero_iff _ _).1 hflags
  rw [keyLengthBad_eq_false_iff] at hk
  cases i with
  | encryptBlock d k | decryptBlock d k =>
    cases he
    cases hr
    rw [blockAnswer_of_lengths hk ((blockLengthBad_eq_false_iff _).1 hd)] at hcls
    cases hcls
  | encryptBytes d k =>
    cases he
    cases hr
    rw [encryptBytesAnswer_of_lengths hk] at hcls
    cases hcls
  | decryptBytes d k =>
    cases he
    cases hr
    obtain ⟨hne, hmod⟩ := (cipherLengthBad_length_eq_false_iff _).1 hd
    obtain ⟨n, hn⟩ := exists_length_eq_blocks hmod hne
    rw [decryptBytesAnswer_of_lengths check keepAll hk hn rfl] at hcls
    generalize hres : unpadBytes check keepAll _ _ = res at hcls
    cases res with
    | ok e => cases hcls
    | error st => rcases unpadBytes_error hres with rfl | rfl <;> cases hcls
  | bytesToInt | intToBytes | transform | pad | unpad | ecbEncrypt | ecbDecrypt => cases he

/-! ### The bytes of the answers -/

/-- The transform of whole blocks and one block more. -/
theorem ecbBytes_append_block (k : Word) {n : Nat} {l b : List Byte} (hl : l.length = 8 * n) (hb : b.length = 8) :
    ecbBytes k (n + 1) (l ++ b) = ecbBytes k n l ++ blockBytes k b := by
  induction n generalizing l with
  | zero =>
    obtain rfl := List.length_eq_zero_iff.1 hl
    have htake : b.take blockSize = b := List.take_of_length_le (Nat.le_of_eq hb)
    simp only [List.nil_append, ecbBytes, htake, List.append_nil]
  | succ n ih =>
    have htail : (l.drop blockSize).length = 8 * n := by rw [List.length_drop, blockSize]; omega
    have hle : blockSize ≤ l.length := by rw [blockSize]; omega
    rw [ecbBytes, List.take_append_of_le_length hle, List.drop_append_of_le_length hle, ih htail, ← List.append_assoc]
    rfl

/-- The pad of whole blocks is one block of eights (42_padding.md R101). -/
theorem padBytes_of_blocks {d : List Byte} (h : d.length % 8 = 0) : padBytes d = d ++ List.replicate 8 0x08#8 := by
  rw [padBytes, padLength, blockSize, h]

theorem zipWith_replicate_xor (v : Byte) (l : List Byte) :
    List.zipWith (· ^^^ ·) (List.replicate l.length v) l = l.map fun k => v ^^^ k := by
  induction l with
  | nil => rfl
  | cons k l ih => exact congrArg _ ih

/-- The transformed pad block of whole blocks (70_reset_and_hazards.md R182). -/
theorem blockBytes_replicate_eight {key : List Byte} (hkey : key.length = 8) :
    blockBytes (toWord key) (List.replicate 8 0x08#8) = key.map fun k => 0x08#8 ^^^ k := by
  have hzip := zipWith_replicate_xor 0x08#8 key
  rw [hkey] at hzip
  rw [blockBytes_eq_zipWith List.length_replicate hkey, hzip]

theorem getLastD_eq_getD (l : List Byte) : l.getLastD 0 = l.getD (l.length - 1) 0 := by
  rw [List.getLastD_eq_getLast?, List.getLast?_eq_getElem?, List.getD_eq_getElem?_getD]

/-- The last decrypted byte, which `unpad` reads (43_ecb_mode.md R124). -/
theorem getLastD_ecbBytes {c key : List Byte} {n : Nat} (hkey : key.length = 8) (hc : c.length = 8 * (n + 1)) :
    (ecbBytes (toWord key) (n + 1) c).getLastD 0 = c.getLastD 0 ^^^ key.getLastD 0 := by
  have hlast : (c.length - 1) % 8 = key.length - 1 := by omega
  rw [getLastD_eq_getD, ecbBytes_length, ← hc, List.getD_eq_getElem?_getD,
    getElem?_ecbBytes_toWord hkey hc (by omega), hlast, getLastD_eq_getD c, getLastD_eq_getD key]
  rfl

/-! ### The free choice of 42_padding.md R106 -/

/-- The choice is open under NONE and a last byte of 0 only. -/
theorem unpadBytes_keepAll {check : PadCheck} {n : Nat} (h : check ≠ .unchecked ∨ n ≠ 0) (a b : Bool)
    (p : List Byte) : unpadBytes check a p n = unpadBytes check b p n := by
  cases check with
  | unchecked =>
    have hn : n ≠ 0 := h.resolve_left (not_not.2 rfl)
    simp only [unpadBytes, hn, if_false]
  | range | full => rfl

/-- So no other answer depends on it (44_commands.md R137). -/
theorem answer_keepAll {check : PadCheck} {i : Instr}
    (h : check ≠ .unchecked ∨ ∀ d key, i = .decryptBytes d key → key.length = 8 → d.length % 8 = 0 → d ≠ [] →
      (d.getLastD 0 ^^^ key.getLastD 0) ≠ 0) (a b : Bool) :
    answer check a i = answer check b i := by
  cases i with
  | decryptBytes d key =>
    by_cases hflags : lengthFlags (Cmd.of opDecryptBytes d key) = 0
    · obtain ⟨hk, hd⟩ := (lengthCause_eq_zero_iff _ _).1 hflags
      obtain ⟨hne, hmod⟩ := (cipherLengthBad_length_eq_false_iff _).1 hd
      have hkey := (keyLengthBad_eq_false_iff _).1 hk
      obtain ⟨n, hn⟩ := exists_length_eq_blocks hmod hne
      have hlast : check ≠ .unchecked ∨ (d.getLastD 0 ^^^ key.getLastD 0).toNat ≠ 0 :=
        h.imp_right fun h' => mt (fun hz => BitVec.eq_of_toNat_eq hz) (h' d key rfl hkey hmod hne)
      rw [← getLastD_ecbBytes hkey hn] at hlast
      rw [answer, answer, decryptBytesAnswer_of_lengths check a hkey hn rfl,
        decryptBytesAnswer_of_lengths check b hkey hn rfl, unpadBytes_keepAll hlast a b]
    · rw [answer_of_lengthFlags _ _ rfl hflags, answer_of_lengthFlags _ _ rfl hflags]
  | encryptBlock | decryptBlock | encryptBytes => rfl
  | bytesToInt | intToBytes | transform | pad | unpad | ecbEncrypt | ecbDecrypt => rfl

/-! ### The two steps of a presented command -/

theorem resetAsserted_eq_false {s : State} (h : s.todo.head? ≠ some .reset) : s.resetAsserted = false := by
  unfold State.resetAsserted
  split
  · rename_i rest htodo
    rw [htodo] at h
    exact absurd rfl h
  · rfl

/-- The step after acceptance runs the command to its response. -/
theorem step_accept_answers {s : State} {c : Cmd} {i : Instr} (hdecode : decode s.params c = .ok i)
    (hreset : s.resetAsserted = false) : ∃ r, step (s.accept c) = .next (s.answerWith r) := by
  have hlatch : decode (s.accept c).params (s.accept c).latched = .ok i := by rw [latched_accept]; exact hdecode
  obtain ⟨r, -, hexec⟩ := exec_of_ready (encode_of_decode hlatch) (ready_latched (s.accept c))
  exact ⟨r, by rw [step_of_latched_command (s := s.accept c) rfl hreset hlatch, hexec, answerWith_accept]⟩

/-- An idle core accepts a presented command and then runs it, unless the host asserts reset next. -/
theorem run_two_of_presented {s : State} {i : Instr} {c : Cmd} {rest : List HostAction} (hidle : s.phase = .idle)
    (htodo : s.todo = .present c :: rest) (hdecode : decode s.params c = .ok i) (hrest : rest.head? ≠ some .reset) :
    ∃ r, Sys2Proof.core.run 2 s = .next (State.answerWith { s with todo := rest } r) := by
  have haccept := (step_of_idle hidle).trans (hostStep_present htodo hdecode)
  obtain ⟨r, hrun⟩ := step_accept_answers (s := { s with todo := rest }) hdecode (resetAsserted_eq_false hrest)
  exact ⟨r, (run_succ Sys2Proof.core 1 haccept).trans (run_succ Sys2Proof.core 0 hrun)⟩

/-! ### Round trips (44_commands.md R135, R136) -/

/-- A block command undoes itself under one key. -/
theorem blockAnswer_blockBytes {p key : List Byte} (hkey : key.length = 8) (hp : p.length = 8) :
    blockAnswer (blockBytes (toWord key) p) key = { cls := .ok, cause := 0, olen := 8, out := p } := by
  rw [blockAnswer_of_lengths hkey (blockBytes_length _ _), blockBytes_blockBytes _ hp]

/-- `decryptBytes` undoes `encryptBytes` under every setting: the transform undoes itself, and `unpad` undoes `pad`. -/
theorem decryptBytesAnswer_ecbBytes (check : PadCheck) (keepAll : Bool) {key : List Byte} (hkey : key.length = 8)
    (d : List Byte) :
    decryptBytesAnswer check keepAll (ecbBytes (toWord key) (d.length / 8 + 1) (padBytes d)) key = okResponse d := by
  have hpad := (ecbBytes_ecbBytes (toWord key) (padBytes_length_blocks d)).symm
  rw [decryptBytesAnswer_of_lengths check keepAll hkey (ecbBytes_length _ _ _) hpad, unpadBytes_padBytes, unpadResponse]

/-- `encryptBytes` of its own output gives the padded data and one more block, the transformed pad block. -/
theorem encryptBytesAnswer_ecbBytes {d key c : List Byte} (hkey : key.length = 8)
    (hc : c = ecbBytes (toWord key) (d.length / 8 + 1) (padBytes d)) :
    encryptBytesAnswer c key = okResponse (padBytes d ++ key.map fun k => 0x08#8 ^^^ k) := by
  have hlen : c.length = 8 * (d.length / 8 + 1) := by rw [hc, ecbBytes_length]
  have hblocks : c.length / 8 = d.length / 8 + 1 := by omega
  rw [encryptBytesAnswer_of_lengths hkey, padBytes_of_blocks (by omega), hblocks,
    ecbBytes_append_block _ hlen List.length_replicate, hc, ecbBytes_ecbBytes _ (padBytes_length_blocks d),
    blockBytes_replicate_eight hkey]

/-! ### The contract of the two block commands -/

/-- The four cases of the two length checks, for a command that is answered as a block command (R131, R132). -/
theorem block_command_answers {i : Instr} {op : BitVec 2} {d key : List Byte} {s : State}
    (he : encode i = some (Cmd.of op d key))
    (hanswer : ∀ check keepAll, answer check keepAll i = some (blockAnswer d key))
    (hop : ∀ n, dataLengthBad op n = blockLengthBad n) (hs : s.ready (Cmd.of op d key)) :
    (key.length = 8 → d.length = 8 → ∃ out, intToBytes (transform (toWord d) (toWord key)).toNat 8 = some out ∧
      exec i s = .next (s.answerWith { cls := .ok, cause := 0, olen := 8, out := out })) ∧
    (key.length ≠ 8 → d.length = 8 →
      exec i s = .next (s.answerWith (errorResponse (invalidArgument causeKeyLength)))) ∧
    (key.length = 8 → d.length ≠ 8 →
      exec i s = .next (s.answerWith (errorResponse (invalidArgument causeDataLength)))) ∧
    (key.length ≠ 8 → d.length ≠ 8 →
      exec i s = .next (s.answerWith (errorResponse (invalidArgument (causeKeyLength ||| causeDataLength))))) := by
  refine ⟨fun hk hd => ⟨_, intToBytes_transform _ _, ?_⟩, fun hk hd => ?_, fun hk hd => ?_, fun hk hd => ?_⟩
  · exact exec_of_answer he hs ((hanswer _ _).trans (congrArg some (blockAnswer_of_lengths hk hd)))
  · exact exec_of_badLengths true false he hs (keyLengthBad_of_ne hk) ((hop _).trans (blockLengthBad_of_eq hd))
      (by decide)
  · exact exec_of_badLengths false true he hs (keyLengthBad_of_eq hk) ((hop _).trans (blockLengthBad_of_ne hd))
      (by decide)
  · exact exec_of_badLengths true true he hs (keyLengthBad_of_ne hk) ((hop _).trans (blockLengthBad_of_ne hd))
      (by decide)

/-! ### The statements -/

/-- Settles O37, by the cases of the block commands' contract. -/
theorem encryptBlockAnswers : Obligations.EncryptBlockAnswers :=
  fun _ _ _ hs => block_command_answers rfl (fun _ _ => rfl) (fun _ => rfl) hs

/-- Settles O38, by the same contract: nothing of it depends on the direction. -/
theorem decryptBlockAnswers : Obligations.DecryptBlockAnswers :=
  fun _ _ _ hs => block_command_answers rfl (fun _ _ => rfl) (fun _ => rfl) hs

/-- Settles O39: the command and the unit-level function give the same transformed blocks. -/
theorem encryptBytesAnswers : Obligations.EncryptBytesAnswers := by
  intro d key s hs
  refine ⟨fun hk => ?_, fun hk => ?_⟩
  · obtain ⟨t, ht, hstate, -⟩ := exec_ecbEncrypt_next hk d s
    refine ⟨t, _, ht, congrArg State.ret hstate, ?_, ?_⟩
    · rw [ecbBytes_length]
      omega
    · exact exec_of_answer rfl hs (congrArg some (encryptBytesAnswer_of_lengths hk d))
  · exact exec_of_badLengths true false rfl hs (keyLengthBad_of_ne hk) rfl (by decide)

/-- Settles O40: the command and the unit-level function unpad the same blocks. -/
theorem decryptBytesAnswers : Obligations.DecryptBytesAnswers := by
  intro c key s hs
  refine ⟨fun hk hne hmod => ?_, fun hk hne hmod => ?_, fun hk hc => ?_, fun hk hc => ?_⟩
  · obtain ⟨n, hn⟩ := exists_length_eq_blocks hmod hne
    obtain ⟨w, hw⟩ : ∃ w, w = ecbBytes (toWord key) (n + 1) c := ⟨_, rfl⟩
    obtain ⟨t, ht, -, -, hok, herror, -⟩ := exec_ecbDecrypt_next hk hn s hw
    have hexec := exec_of_answer (i := .decryptBytes c key) rfl hs
      (congrArg some (decryptBytesAnswer_of_lengths _ _ hk hn hw))
    refine ⟨t, ht, ?_⟩
    cases hres : unpadBytes s.params.padCheck (Config.unpadZeroKeepsAll s.draws) w (w.getLastD 0).toNat with
    | ok d =>
      obtain ⟨-, hret, -⟩ := hok d hres
      rw [hres] at hexec
      refine .inl ⟨d, hret, hexec, fun hfull => ?_⟩
      obtain ⟨h1, h8, hlen⟩ := length_of_exec_ecbDecrypt_full hk hn ht hret hfull
      omega
    | error st =>
      obtain ⟨-, hret, -⟩ := herror st hres
      rw [hres] at hexec
      have hcheck : s.params.padCheck ≠ .unchecked := fun hunchecked => by
        rw [hunchecked] at hres
        cases hres
      rcases unpadBytes_error hres with rfl | rfl
      · exact .inr ⟨_, .inl rfl, hret, hcheck, hexec⟩
      · exact .inr ⟨_, .inr rfl, hret, hcheck, hexec⟩
  · exact exec_of_badLengths true false rfl hs (keyLengthBad_of_ne hk)
      ((cipherLengthBad_length_eq_false_iff _).2 ⟨hne, hmod⟩) (by decide)
  · exact exec_of_badLengths false true rfl hs (keyLengthBad_of_eq hk) (cipherLengthBad_of_not_blocks hc) (by decide)
  · exact exec_of_badLengths true true rfl hs (keyLengthBad_of_ne hk) (cipherLengthBad_of_not_blocks hc) (by decide)

/-- Settles O41: the answer is legal, and the free value decides nothing outside the open case. -/
theorem everyCommandAnswersExactlyOnce : Obligations.EveryCommandAnswersExactlyOnce := by
  intro i c he
  refine ⟨fun s hs => ?_, fun s rest hidle htodo hdecode hrest => ?_, fun s u r q _ _ hcheck hopen hr hq => ?_⟩
  · obtain ⟨r, hr, hexec⟩ := exec_of_ready he hs
    exact ⟨r, legalResponse_of_answer hr, hexec, rfl⟩
  · obtain ⟨r, hrun⟩ := run_two_of_presented hidle htodo hdecode hrest
    exact ⟨r, _, hrun, rfl, rfl, rfl⟩
  · have hr' := answer_of_exec he hr
    have hq' := answer_of_exec he hq
    rw [← hcheck, answer_keepAll hopen _ (Config.unpadZeroKeepsAll s.draws), hr'] at hq'
    exact Option.some.inj hq'

/-- Settles O43, by the two round trips of the answers. -/
theorem encryptThenDecryptGivesTheDataBack : Obligations.EncryptThenDecryptGivesTheDataBack := by
  refine ⟨fun p key s hp hk hs => ⟨blockBytes (toWord key) p, ?_, fun u hu => ?_⟩,
    fun d key s hk hs => ⟨ecbBytes (toWord key) (d.length / 8 + 1) (padBytes d), ?_, fun u hu => ?_⟩⟩
  · exact answers_of_answer rfl hs (congrArg some (blockAnswer_of_lengths hk hp))
  · exact answers_of_answer rfl hu (congrArg some (blockAnswer_blockBytes hk hp))
  · exact answers_of_answer rfl hs (congrArg some (encryptBytesAnswer_of_lengths hk d))
  · exact answers_of_answer rfl hu (congrArg some (decryptBytesAnswer_ecbBytes _ _ hk d))

/-- Settles O44: the two block commands have one answer, which undoes itself; the byte-sequence commands do not. -/
theorem blockCommandsAreOneFunction : Obligations.BlockCommandsAreOneFunction := by
  refine ⟨fun d key s hidle => ⟨?_, rfl, rfl⟩, fun p key c s u hs hu h => ?_, fun d key s hk hidle hmod => ⟨?_, ?_⟩,
    fun d key s u hk hs hu => ⟨ecbBytes (toWord key) (d.length / 8 + 1) (padBytes d), ?_, _, rfl, ?_⟩⟩
  · exact (exec_of_answer (i := .encryptBlock d key) rfl (.inl hidle) rfl).trans
      (exec_of_answer (i := .decryptBlock d key) rfl (.inl hidle) rfl).symm
  · obtain ⟨hk, hp, rfl⟩ := lengths_of_blockAnswer_ok (Option.some.inj (answer_of_answers rfl h))
    exact answers_of_answer rfl (.inl hu) (congrArg some (blockAnswer_blockBytes hk hp))
  · exact ⟨_, answers_of_answer rfl (.inl hidle) (congrArg some (encryptBytesAnswer_of_lengths hk d))⟩
  · exact ⟨_, exec_of_badLengths false true rfl (.inl hidle) (keyLengthBad_of_eq hk)
      (cipherLengthBad_of_not_blocks (.inr hmod)) (by decide), rfl, rfl⟩
  · exact answers_of_answer rfl (.inl hs) (congrArg some (encryptBytesAnswer_of_lengths hk d))
  · exact answers_of_answer rfl (.inl hu) (congrArg some (encryptBytesAnswer_ecbBytes hk rfl))

/-- Settles O46: a response INVALID_ARGUMENT is that of the length flags, which the two commands share. -/
theorem lengthViolationsReadNoByte : Obligations.LengthViolationsReadNoByte := by
  intro i j c e s r hi hj hop hklen hdlen hidle hexec hcls
  have hr := answer_of_exec hi hexec
  have hflags := lengthFlags_ne_zero hi hr hcls
  have hsame : lengthFlags c = lengthFlags e := by rw [lengthFlags, lengthFlags, hop, hklen, hdlen]
  refine exec_of_answer hj (.inl hidle) ?_
  calc answer _ _ j
    _ = some (errorResponse (invalidArgument (lengthFlags e))) := answer_of_lengthFlags _ _ hj (hsame ▸ hflags)
    _ = answer _ _ i := by rw [← hsame, answer_of_lengthFlags _ _ hi hflags]
    _ = some r := hr

/-- Settles O49: the datapath's next state; the transform is the exclusive-or. -/
theorem blockDatapathWritesItsRegisters : Obligations.BlockDatapathWritesItsRegisters :=
  fun d key _ hk hd hkl hdl => ⟨_, intToBytes_transform (toWord key) d, blockDatapath_eq hk hkl hd hdl⟩

end Sys2Proof.Machine
end

section
/-! Proofs about the exceptions (60_exceptions.md): which cause flags a response carries, and the end of a command by
`raise`. -/

namespace Sys2Proof.Machine

/-! ### The length flags (R151, R152, R155) -/

theorem lengthCause_length_flags (keyBad dataBad : Bool) :
    (lengthCause keyBad dataBad).getLsbD 0 = keyBad ∧ (lengthCause keyBad dataBad).getLsbD 1 = dataBad := by
  decide +revert

theorem lengthCause_pad_flags (keyBad dataBad : Bool) :
    (lengthCause keyBad dataBad).getLsbD 2 = false ∧ (lengthCause keyBad dataBad).getLsbD 3 = false := by
  decide +revert

theorem keyLengthBad_eq_true_iff (n : Nat) : keyLengthBad n = true ↔ n ≠ 8 := decide_eq_true_iff

theorem cipherLengthBad_eq_true_iff (n : Nat) : cipherLengthBad n = true ↔ n = 0 ∨ n % 8 ≠ 0 := by
  rw [cipherLengthBad, Bool.or_eq_true, decide_eq_true_iff, decide_eq_true_iff, blockSize]

/-- The wrong data lengths: any but 8 for a block command, no positive multiple of 8 for `decryptBytes`, none for
`encryptBytes`. -/
theorem dataLengthBad_eq_true_iff (op : BitVec 2) (n : Nat) :
    dataLengthBad op n = true ↔ (op.getLsbD 1 = false ∧ n ≠ 8) ∨ (op = 0b11#2 ∧ (n = 0 ∨ n % 8 ≠ 0)) := by
  by_cases hencrypt : op = opEncryptBytes
  · subst hencrypt
    simp [dataLengthBad, opEncryptBytes]
  by_cases hdecrypt : op = opDecryptBytes
  · subst hdecrypt
    simp [dataLengthBad, opEncryptBytes, opDecryptBytes, cipherLengthBad_eq_true_iff]
  · have hblock : op.getLsbD 1 = false := by decide +revert
    rw [dataLengthBad, if_neg hencrypt, if_neg hdecrypt, blockLengthBad, decide_eq_true_iff, blockSize]
    exact ⟨fun h => .inl ⟨hblock, h⟩, fun h => h.elim And.right fun h => absurd h.1 hdecrypt⟩

/-! ### The pad flags (R153, R155) -/

/-- `unpad` fails under RANGE or FULL only, and for a mismatch under FULL only. -/
theorem unpadBytes_error_setting {check : PadCheck} {keepAll : Bool} {p : List Byte} {n : Nat} {st : Status}
    (h : unpadBytes check keepAll p n = .error st) :
    st = paddingError causePadRange ∧ check ≠ .unchecked ∨ st = paddingError causePadMismatch ∧ check = .full := by
  cases check with
  | unchecked => cases h
  | range =>
    by_cases hbad : n = 0 ∨ p.length < n
    · rw [unpadBytes_range_of_bad keepAll hbad] at h
      exact .inl ⟨(Except.error.inj h).symm, nofun⟩
    · rw [unpadBytes_range_of_fits keepAll (by omega) (by omega)] at h
      cases h
  | full => exact (unpadBytes_error h).imp (⟨·, nofun⟩) (⟨·, rfl⟩)

/-- The cause of an answer: the length flags, or, with none of them set, the one pad flag of a `decryptBytes` whose
setting looks for it (R157). -/
theorem cause_of_answer {check : PadCheck} {keepAll : Bool} {i : Instr} {c : Cmd} {r : Response}
    (he : encode i = some c) (hr : answer check keepAll i = some r) :
    r.cause = lengthFlags c ∨
      lengthFlags c = 0 ∧ c.op = opDecryptBytes ∧
        (r.cause = causePadRange ∧ check ≠ .unchecked ∨ r.cause = causePadMismatch ∧ check = .full) := by
  by_cases hflags : lengthFlags c = 0
  · cases i with
    | encryptBlock | decryptBlock | encryptBytes =>
      cases he
      cases hr
      exact .inl ((congrArg Response.cause (if_neg (not_not.2 hflags))).trans hflags.symm)
    | decryptBytes d key =>
      cases he
      cases hr
      obtain ⟨hk, hd⟩ := (lengthCause_eq_zero_iff _ _).1 hflags
      obtain ⟨hne, hmod⟩ := (cipherLengthBad_length_eq_false_iff _).1 hd
      obtain ⟨n, hn⟩ := exists_length_eq_blocks hmod hne
      rw [decryptBytesAnswer_of_lengths check keepAll ((keyLengthBad_eq_false_iff _).1 hk) hn rfl]
      generalize hres : unpadBytes check keepAll _ _ = res
      cases res with
      | ok e => exact .inl hflags.symm
      | error st =>
        exact .inr ⟨hflags, rfl, (unpadBytes_error_setting hres).imp
          (And.imp_left (congrArg Status.cause)) (And.imp_left (congrArg Status.cause))⟩
    | bytesToInt | intToBytes | transform | pad | unpad | ecbEncrypt | ecbDecrypt => cases he
  · rw [answer_of_lengthFlags check keepAll he hflags] at hr
    cases hr
    exact .inl rfl

/-- The two length flags of an answer are those of the command. -/
theorem lengthFlags_of_answer {check : PadCheck} {keepAll : Bool} {i : Instr} {c : Cmd} {r : Response}
    (he : encode i = some c) (hr : answer check keepAll i = some r) :
    r.cause.getLsbD 0 = keyLengthBad c.klen ∧ r.cause.getLsbD 1 = dataLengthBad c.op c.dlen := by
  obtain hcause | ⟨hflags, -, hpad⟩ := cause_of_answer he hr
  · rw [hcause]
    exact lengthCause_length_flags _ _
  · obtain ⟨hk, hd⟩ := (lengthCause_eq_zero_iff _ _).1 hflags
    rw [hk, hd]
    obtain ⟨hcause, -⟩ | ⟨hcause, -⟩ := hpad <;> rw [hcause] <;> decide

/-- A pad flag of an answer is that of a `decryptBytes` whose setting looks for it. -/
theorem padFlags_of_answer {check : PadCheck} {keepAll : Bool} {i : Instr} {c : Cmd} {r : Response}
    (he : encode i = some c) (hr : answer check keepAll i = some r) :
    (r.cause.getLsbD 2 = true → c.op = opDecryptBytes ∧ check ≠ .unchecked) ∧
      (r.cause.getLsbD 3 = true → c.op = opDecryptBytes ∧ check = .full) := by
  obtain hcause | ⟨-, hop, ⟨hcause, hcheck⟩ | ⟨hcause, hcheck⟩⟩ := cause_of_answer he hr
  · obtain ⟨hrange, hmismatch⟩ : (lengthFlags c).getLsbD 2 = false ∧ (lengthFlags c).getLsbD 3 = false :=
      lengthCause_pad_flags _ _
    rw [hcause, hrange, hmismatch]
    exact ⟨nofun, nofun⟩
  · rw [hcause]
    exact ⟨fun _ => ⟨hop, hcheck⟩, fun h => absurd h (by decide)⟩
  · rw [hcause]
    exact ⟨fun h => absurd h (by decide), fun _ => ⟨hop, hcheck⟩⟩

/-! ### The statements -/

/-- Settles O47: the length flags are those of the lengths, and a pad flag comes of a failing `unpad` only. -/
theorem responsesEachCommandCanProduce : Obligations.ResponsesEachCommandCanProduce := by
  intro i c s r he _ hexec
  have hr := answer_of_exec he hexec
  obtain ⟨hkey, hdata⟩ := lengthFlags_of_answer he hr
  rw [hkey, hdata]
  exact ⟨keyLengthBad_eq_true_iff _, dataLengthBad_eq_true_iff _ _, padFlags_of_answer he hr⟩

/-- Settles O48: `raise` is the error response. -/
theorem raiseEndsTheCommandWithNoOutput : Obligations.RaiseEndsTheCommandWithNoOutput :=
  fun st s => ⟨raise_eq st s, rfl, rfl, rfl⟩

end Sys2Proof.Machine
end

section
/-! Proofs about reset and hazards (70_reset_and_hazards.md): what an idle core does for each action of its host, reset in
any phase, that no step faults, and what a ciphertext tells about the key. -/

namespace Sys2Proof.Machine

/-! ### The host's actions (60_exceptions.md R166), but for a formed command, which `hostStep_present` accepts -/

theorem hostStep_of_nothing_to_do {s : State} (h : s.todo = []) : hostStep s = .next s := by
  simp only [hostStep, h]

theorem hostStep_await {s : State} {rest : List HostAction} (h : s.todo = .await :: rest) :
    hostStep s = .next { s with todo := rest } := by
  simp only [hostStep, h]

theorem hostStep_reset {s : State} {rest : List HostAction} (h : s.todo = .reset :: rest) :
    hostStep s = .next s.takeReset := by
  simp only [hostStep, h]

/-- A presented tuple that is no command is refused by name (30_encoding.md R62). -/
theorem hostStep_present_error {s : State} {c : Cmd} {rest : List HostAction} {e : DecodeError}
    (h : s.todo = .present c :: rest) (hd : decode s.params c = .error e) : hostStep s = .refused (.notACommand e) := by
  simp only [hostStep, h, hd]

/-! ### Reset (R175, R176) -/

theorem step_of_busy_reset {s : State} (hp : s.phase = .busy) (hr : s.resetAsserted = true) :
    step s = .next s.takeReset := by
  simp only [step, hp, hr, if_true]

/-- In either phase a step with reset asserted goes through reset. -/
theorem step_reset {s : State} {rest : List HostAction} (h : s.todo = .reset :: rest) : step s = .next s.takeReset := by
  cases hp : s.phase with
  | idle => rw [step_of_idle hp, hostStep_reset h]
  | busy => exact step_of_busy_reset hp (by simp only [State.resetAsserted, h])

/-! ### No step faults (R189) -/

/-- An idle step goes on, unless the host presents a tuple the decoder turns away; no invariant is needed for this. -/
theorem hostStep_next_or_refused (s : State) :
    (∃ t, hostStep s = .next t) ∨
      ∃ c rest e, s.todo = .present c :: rest ∧ decode s.params c = .error e ∧
        hostStep s = .refused (.notACommand e) := by
  match htodo : s.todo with
  | [] => exact .inl ⟨_, hostStep_of_nothing_to_do htodo⟩
  | .await :: rest => exact .inl ⟨_, hostStep_await htodo⟩
  | .reset :: rest => exact .inl ⟨_, hostStep_reset htodo⟩
  | .present c :: rest =>
    cases hdecode : decode s.params c with
    | ok i => exact .inl ⟨_, hostStep_present htodo hdecode⟩
    | error e => exact .inr ⟨c, rest, e, rfl, hdecode, hostStep_present_error htodo hdecode⟩

/-- A busy core with a formed latch goes on: through reset, or by running the latched command to its response. -/
theorem step_of_formed_latch {s : State} (hp : s.phase = .busy) (hlatch : s.latched.wf s.params = true) :
    ∃ t, step s = .next t := by
  cases hreset : s.resetAsserted with
  | true => exact ⟨_, step_of_busy_reset hp hreset⟩
  | false =>
    have hdecode := (decode_ok_iff s.params s.latched _).2 ⟨hlatch, rfl⟩
    obtain ⟨r, -, hexec⟩ := exec_of_ready (encode_of_decode hdecode) (ready_latched s)
    exact ⟨_, (step_of_latched_command hp hreset hdecode).trans hexec⟩

/-! ### The key from a ciphertext (R182) -/

/-- Exclusive-or with the same bytes twice gives the bytes back. -/
theorem zipWith_xor_cancel_left {p k : List Byte} (h : p.length = k.length) :
    List.zipWith (· ^^^ ·) p (List.zipWith (· ^^^ ·) p k) = k := by
  refine List.ext_getElem (by simp [h]) fun j _ _ => ?_
  rw [List.getElem_zipWith, List.getElem_zipWith, ← BitVec.xor_assoc, BitVec.xor_self, BitVec.zero_xor]

theorem map_xor_map_xor (v : Byte) (l : List Byte) : (l.map fun k => v ^^^ k).map (fun b => v ^^^ b) = l := by
  have hcancel : ((fun b => v ^^^ b) ∘ fun k => v ^^^ k) = id := funext fun k => by
    rw [Function.comp_apply, ← BitVec.xor_assoc, BitVec.xor_self, BitVec.zero_xor, id]
  rw [List.map_map, hcancel, List.map_id]

/-- The ciphertext of whole blocks: the transformed blocks, then the transformed block of eights. -/
theorem encryptBytesAnswer_of_blocks {d key : List Byte} (hkey : key.length = 8) (hd : d.length % 8 = 0) :
    encryptBytesAnswer d key =
      okResponse (ecbBytes (toWord key) (d.length / 8) d ++ key.map fun k => 0x08#8 ^^^ k) := by
  rw [encryptBytesAnswer_of_lengths hkey, padBytes_of_blocks hd,
    ecbBytes_append_block _ (by omega) List.length_replicate, blockBytes_replicate_eight hkey]

/-! ### The statements -/

/-- Settles O58: an idle step is the host's, and a busy core's latch is formed by the invariant. -/
theorem noStepFaults : Obligations.NoStepFaults := by
  intro s hinv
  cases hp : s.phase with
  | idle =>
    rw [step_of_idle hp]
    obtain hnext | ⟨c, rest, e, htodo, hdecode, hstep⟩ := hostStep_next_or_refused s
    · exact .inl hnext
    · exact .inr ⟨c, rest, e, rfl, htodo, hdecode, hstep⟩
  | busy => exact .inl (step_of_formed_latch hp (hinv.latch_formed hp))

/-- Settles O51: a block is transformed by exclusive-or with the key, and whole blocks end in the block of eights. -/
theorem ciphertextRevealsTheKey : Obligations.CiphertextRevealsTheKey := by
  refine ⟨fun p key s hp hkey hs => ?_, fun d key s hd hkey hs => ?_⟩
  · refine ⟨_, answers_of_answer rfl hs (congrArg some (blockAnswer_of_lengths hkey hp)), ?_⟩
    rw [blockBytes_eq_zipWith hp hkey, zipWith_xor_cancel_left (hp.trans hkey.symm)]
  · have hlen : (ecbBytes (toWord key) (d.length / 8) d).length = d.length := by rw [ecbBytes_length]; omega
    have hdrop := List.drop_left' (l₂ := key.map fun k => 0x08#8 ^^^ k) hlen
    refine ⟨_, answers_of_answer rfl hs (congrArg some (encryptBytesAnswer_of_blocks hkey hd)), hdrop, ?_, ?_⟩
    · rintro rfl
      rfl
    · rw [hdrop, map_xor_map_xor]

/-- Settles O9: an idle step is the host's, at two of its actions. -/
theorem idleCoreWaitsForTheHost : Obligations.IdleCoreWaitsForTheHost := fun _ hidle =>
  ⟨fun h => (step_of_idle hidle).trans (hostStep_of_nothing_to_do h),
    fun _ h => (step_of_idle hidle).trans (hostStep_await h)⟩

/-- Settles O10: the state after `takeReset` is idle and has the rest of the host's list. -/
theorem resetDropsTheCommandInFlight : Obligations.ResetDropsTheCommandInFlight :=
  fun _ _ h => ⟨_, step_reset h, rfl, rfl, congrArg List.tail h, rfl⟩

/-- Settles O11, field by field. -/
theorem resetStateIsIdle : Obligations.ResetStateIsIdle := ⟨rfl, rfl, rfl, rfl⟩

end Sys2Proof.Machine
end
